-- ==== Sys2Proof/Word.lean ====
section
/-! DEFINITION. The machine's word types (spec/00_scope.md R3, R4): everything is unsigned. -/

namespace Sys2Proof

/-- An 8-bit value: a V register, a timer, a memory byte, the immediate `nn`. -/
abbrev Byte := BitVec 8

/-- A 16-bit value: the index register I, the PC, a stack entry, an opcode. -/
abbrev Word := BitVec 16

/-- The 12-bit address immediate `nnn` (R61). -/
abbrev Addr12 := BitVec 12

/-- A register number, the 4-bit opcode field `x` or `y`: every value names a register (R10). -/
abbrev Reg := Fin 16

/-- VF, which is `V[15]`: the same storage, not a separate flag (R11). -/
abbrev Reg.vf : Reg := 15

/-- V0, the implicit offset register of Bnnn (R93). -/
abbrev Reg.v0 : Reg := 0

end Sys2Proof
end

