-- ==== Sys2Proof/Syntax.lean ====
section
/-! DEFINITION. The 34 instructions of spec/30_encoding.md R66, one constructor per row of spec/opcode_table.json,
in the table's order. -/

namespace Sys2Proof

/-- An instruction. `x`, `y` are register numbers, `nn` the byte immediate, `nnn` the address immediate and `n` the
sprite height (R61, R63). The hexadecimal pattern in each docstring is the instruction's normative name (R67). -/
inductive Instr where
  /-- 00E0, R140: clear the framebuffer. -/
  | cls
  /-- 00EE, R90: return from subroutine. -/
  | ret
  /-- 1nnn, R91: jump. -/
  | jp (nnn : Addr12)
  /-- 2nnn, R92: call subroutine. -/
  | call (nnn : Addr12)
  /-- 3xnn, R100: skip if register equals immediate. -/
  | seImm (x : Reg) (nn : Byte)
  /-- 4xnn, R101: skip if register differs from immediate. -/
  | sneImm (x : Reg) (nn : Byte)
  /-- 5xy0, R102: skip if registers equal. -/
  | seReg (x y : Reg)
  /-- 6xnn, R110: load immediate. -/
  | ldImm (x : Reg) (nn : Byte)
  /-- 7xnn, R111: add immediate, no flag. -/
  | addImm (x : Reg) (nn : Byte)
  /-- 8xy0, R112: copy register. -/
  | ldReg (x y : Reg)
  /-- 8xy1, R113: bitwise OR. -/
  | orReg (x y : Reg)
  /-- 8xy2, R114: bitwise AND. -/
  | andReg (x y : Reg)
  /-- 8xy3, R115: bitwise exclusive OR. -/
  | xorReg (x y : Reg)
  /-- 8xy4, R116: add with carry flag. -/
  | addReg (x y : Reg)
  /-- 8xy5, R117: subtract, no-borrow flag. -/
  | subReg (x y : Reg)
  /-- 8xy6, R118: shift right by one; the field `y` is decoded and has no effect (R65). -/
  | shr (x y : Reg)
  /-- 8xy7, R119: reverse subtract, no-borrow flag. -/
  | subnReg (x y : Reg)
  /-- 8xyE, R120: shift left by one; the field `y` is decoded and has no effect (R65). -/
  | shl (x y : Reg)
  /-- 9xy0, R103: skip if registers differ. -/
  | sneReg (x y : Reg)
  /-- Annn, R130: load index register. -/
  | ldI (nnn : Addr12)
  /-- Bnnn, R93: jump with offset V0. -/
  | jpV0 (nnn : Addr12)
  /-- Cxnn, R121: masked random byte. -/
  | rnd (x : Reg) (nn : Byte)
  /-- Dxyn, R141: draw an `n`-row sprite. -/
  | drw (x y : Reg) (n : Nat)
  /-- Ex9E, R150: skip if key pressed. -/
  | skp (x : Reg)
  /-- ExA1, R151: skip if key not pressed. -/
  | sknp (x : Reg)
  /-- Fx07, R152: read delay timer. -/
  | ldVxDt (x : Reg)
  /-- Fx0A, R153: wait for a key. -/
  | ldVxK (x : Reg)
  /-- Fx15, R154: set delay timer. -/
  | ldDtVx (x : Reg)
  /-- Fx18, R155: set sound timer. -/
  | ldStVx (x : Reg)
  /-- Fx1E, R131: add register to index. -/
  | addI (x : Reg)
  /-- Fx29, R132: index of font glyph. -/
  | ldF (x : Reg)
  /-- Fx33, R133: store binary-coded decimal. -/
  | ldB (x : Reg)
  /-- Fx55, R134: store registers V0 to Vx. -/
  | storeRegs (x : Reg)
  /-- Fx65, R135: load registers V0 to Vx. -/
  | loadRegs (x : Reg)
  deriving DecidableEq, Repr

end Sys2Proof
end

