-- ==== Sys2Proof/Decode.lean ====
section
/-! DEFINITION. Field extraction, decoding and encoding (spec/30_encoding.md R60 to R66): total on all 65536 opcodes,
rejecting by name; then the encoder; then the opcode map as a table of masks. -/

namespace Sys2Proof

/-! ### Fields (R61) -/

/-- `fam = op[15:12]`, the instruction family. -/
def famOf (op : Word) : BitVec 4 := op.extractLsb' 12 4

/-- `x = op[11:8]`. -/
def xOf (op : Word) : Reg := (op.extractLsb' 8 4).toFin

/-- `y = op[7:4]`. -/
def yOf (op : Word) : Reg := (op.extractLsb' 4 4).toFin

/-- `n = op[3:0]`, a count or a secondary opcode. -/
def nOf (op : Word) : Nat := (op.extractLsb' 0 4).toNat

/-- `nn = op[7:0]`. -/
def nnOf (op : Word) : Byte := op.extractLsb' 0 8

/-- `nnn = op[11:0]`. -/
def nnnOf (op : Word) : Addr12 := op.extractLsb' 0 12

/-! ### Decoding (R64, R65) -/

/-- Why no instruction was read. The last six are R65's families of unrecognized opcodes, each with the field that
selects no row; every one makes a step raise `InvalidOpcode`. -/
inductive DecodeError where
  /-- Fewer than two bytes were given: no opcode (R60). -/
  | truncated
  /-- `0nnn` other than 00E0 and 00EE. -/
  | noRowInFamily0 (nnn : Addr12)
  /-- `5xyn` with `n` not 0. -/
  | noRowInFamily5 (n : Nat)
  /-- `8xyn` with `n` in 8, 9, A, B, C, D, F. -/
  | noRowInFamily8 (n : Nat)
  /-- `9xyn` with `n` not 0. -/
  | noRowInFamily9 (n : Nat)
  /-- `Exnn` with `nn` neither 9E nor A1. -/
  | noRowInFamilyE (nn : Byte)
  /-- `Fxnn` with `nn` none of 07, 0A, 15, 18, 1E, 29, 33, 55, 65. -/
  | noRowInFamilyF (nn : Byte)
  deriving DecidableEq, Repr

/-- Family 0 dispatches on all twelve remaining bits (R64). -/
def decodeFamily0 (nnn : Addr12) : Except DecodeError Instr :=
  if nnn = 0x0E0#12 then .ok .cls
  else if nnn = 0x0EE#12 then .ok .ret
  else .error (.noRowInFamily0 nnn)

/-- Family 8 dispatches on `n` (R64). -/
def decodeFamily8 (x y : Reg) (n : Nat) : Except DecodeError Instr :=
  match n with
  | 0x0 => .ok (.ldReg x y)
  | 0x1 => .ok (.orReg x y)
  | 0x2 => .ok (.andReg x y)
  | 0x3 => .ok (.xorReg x y)
  | 0x4 => .ok (.addReg x y)
  | 0x5 => .ok (.subReg x y)
  | 0x6 => .ok (.shr x y)
  | 0x7 => .ok (.subnReg x y)
  | 0xE => .ok (.shl x y)
  | n => .error (.noRowInFamily8 n)

/-- Family E dispatches on `nn` (R64). -/
def decodeFamilyE (x : Reg) (nn : Byte) : Except DecodeError Instr :=
  if nn = 0x9E#8 then .ok (.skp x)
  else if nn = 0xA1#8 then .ok (.sknp x)
  else .error (.noRowInFamilyE nn)

/-- Family F dispatches on `nn` (R64). -/
def decodeFamilyF (x : Reg) (nn : Byte) : Except DecodeError Instr :=
  if nn = 0x07#8 then .ok (.ldVxDt x)
  else if nn = 0x0A#8 then .ok (.ldVxK x)
  else if nn = 0x15#8 then .ok (.ldDtVx x)
  else if nn = 0x18#8 then .ok (.ldStVx x)
  else if nn = 0x1E#8 then .ok (.addI x)
  else if nn = 0x29#8 then .ok (.ldF x)
  else if nn = 0x33#8 then .ok (.ldB x)
  else if nn = 0x55#8 then .ok (.storeRegs x)
  else if nn = 0x65#8 then .ok (.loadRegs x)
  else .error (.noRowInFamilyF nn)

/-- The decoder (R64): a primary dispatch on the family, a secondary one where the family's pattern fixes more bits.
The last arm is family F, the only value of a 4-bit field that the arms before it leave. -/
def decode (op : Word) : Except DecodeError Instr :=
  match (famOf op).toNat with
  | 0x0 => decodeFamily0 (nnnOf op)
  | 0x1 => .ok (.jp (nnnOf op))
  | 0x2 => .ok (.call (nnnOf op))
  | 0x3 => .ok (.seImm (xOf op) (nnOf op))
  | 0x4 => .ok (.sneImm (xOf op) (nnOf op))
  | 0x5 => if nOf op = 0 then .ok (.seReg (xOf op) (yOf op)) else .error (.noRowInFamily5 (nOf op))
  | 0x6 => .ok (.ldImm (xOf op) (nnOf op))
  | 0x7 => .ok (.addImm (xOf op) (nnOf op))
  | 0x8 => decodeFamily8 (xOf op) (yOf op) (nOf op)
  | 0x9 => if nOf op = 0 then .ok (.sneReg (xOf op) (yOf op)) else .error (.noRowInFamily9 (nOf op))
  | 0xA => .ok (.ldI (nnnOf op))
  | 0xB => .ok (.jpV0 (nnnOf op))
  | 0xC => .ok (.rnd (xOf op) (nnOf op))
  | 0xD => .ok (.drw (xOf op) (yOf op) (nOf op))
  | 0xE => decodeFamilyE (xOf op) (nnOf op)
  | _ => decodeFamilyF (xOf op) (nnOf op)

/-- The opcode held by two consecutive bytes: big-endian, `Mem[a] ++ Mem[a+1]` (R60; spec/20_memory.md R41, R44). -/
def opcodeOfBytes (hi lo : Byte) : Word := hi ++ lo

/-- The decoder on a stream of bytes: the instruction and the bytes after it, two bytes for every instruction (R60). -/
def decodeBytes : List Byte → Except DecodeError (Instr × List Byte)
  | hi :: lo :: rest =>
    match decode (opcodeOfBytes hi lo) with
    | .ok i => .ok (i, rest)
    | .error e => .error e
  | _ => .error .truncated

/-! ### Encoding (R62, R66) -/

/-- A register number as its 4-bit field. -/
def regField (r : Reg) : BitVec 4 := BitVec.ofFin r

/-- Format A: family and a 12-bit address. -/
def packA (fam : BitVec 4) (nnn : Addr12) : Word := fam ++ nnn

/-- Formats I and K: family, register, and a byte immediate or sub-opcode. -/
def packI (fam : BitVec 4) (x : Reg) (nn : Byte) : Word := fam ++ regField x ++ nn

/-- Formats R and D: family, two registers, and a 4-bit sub-opcode or count. -/
def packR (fam : BitVec 4) (x y : Reg) (n : BitVec 4) : Word := fam ++ regField x ++ regField y ++ n

/-- The opcode of a well-formed instruction, from R66's patterns. -/
def encode : Instr → Word
  | .cls => 0x00E0#16
  | .ret => 0x00EE#16
  | .jp nnn => packA 0x1#4 nnn
  | .call nnn => packA 0x2#4 nnn
  | .seImm x nn => packI 0x3#4 x nn
  | .sneImm x nn => packI 0x4#4 x nn
  | .seReg x y => packR 0x5#4 x y 0x0#4
  | .ldImm x nn => packI 0x6#4 x nn
  | .addImm x nn => packI 0x7#4 x nn
  | .ldReg x y => packR 0x8#4 x y 0x0#4
  | .orReg x y => packR 0x8#4 x y 0x1#4
  | .andReg x y => packR 0x8#4 x y 0x2#4
  | .xorReg x y => packR 0x8#4 x y 0x3#4
  | .addReg x y => packR 0x8#4 x y 0x4#4
  | .subReg x y => packR 0x8#4 x y 0x5#4
  | .shr x y => packR 0x8#4 x y 0x6#4
  | .subnReg x y => packR 0x8#4 x y 0x7#4
  | .shl x y => packR 0x8#4 x y 0xE#4
  | .sneReg x y => packR 0x9#4 x y 0x0#4
  | .ldI nnn => packA 0xA#4 nnn
  | .jpV0 nnn => packA 0xB#4 nnn
  | .rnd x nn => packI 0xC#4 x nn
  | .drw x y n => packR 0xD#4 x y (BitVec.ofNat 4 n)
  | .skp x => packI 0xE#4 x 0x9E#8
  | .sknp x => packI 0xE#4 x 0xA1#8
  | .ldVxDt x => packI 0xF#4 x 0x07#8
  | .ldVxK x => packI 0xF#4 x 0x0A#8
  | .ldDtVx x => packI 0xF#4 x 0x15#8
  | .ldStVx x => packI 0xF#4 x 0x18#8
  | .addI x => packI 0xF#4 x 0x1E#8
  | .ldF x => packI 0xF#4 x 0x29#8
  | .ldB x => packI 0xF#4 x 0x33#8
  | .storeRegs x => packI 0xF#4 x 0x55#8
  | .loadRegs x => packI 0xF#4 x 0x65#8

/-- The high byte of an opcode, the one at the lower address (R44). -/
def opcodeHi (op : Word) : Byte := op.extractLsb' 8 8

/-- The low byte of an opcode, the one at the higher address (R44). -/
def opcodeLo (op : Word) : Byte := op.extractLsb' 0 8

/-- The two bytes of an opcode in address order. -/
def opcodeBytes (op : Word) : List Byte := [opcodeHi op, opcodeLo op]

/-! ### The opcode map (R66) as masks -/

/-- R66's `match` and `mask` columns, row 1 first. -/
def opcodeMap : List (Word × Word) :=
  [(0x00E0#16, 0xFFFF#16), (0x00EE#16, 0xFFFF#16), (0x1000#16, 0xF000#16), (0x2000#16, 0xF000#16),
   (0x3000#16, 0xF000#16), (0x4000#16, 0xF000#16), (0x5000#16, 0xF00F#16), (0x6000#16, 0xF000#16),
   (0x7000#16, 0xF000#16), (0x8000#16, 0xF00F#16), (0x8001#16, 0xF00F#16), (0x8002#16, 0xF00F#16)] ++
  [(0x8003#16, 0xF00F#16), (0x8004#16, 0xF00F#16), (0x8005#16, 0xF00F#16), (0x8006#16, 0xF00F#16),
   (0x8007#16, 0xF00F#16), (0x800E#16, 0xF00F#16), (0x9000#16, 0xF00F#16), (0xA000#16, 0xF000#16),
   (0xB000#16, 0xF000#16), (0xC000#16, 0xF000#16), (0xD000#16, 0xF000#16), (0xE09E#16, 0xF0FF#16)] ++
  [(0xE0A1#16, 0xF0FF#16), (0xF007#16, 0xF0FF#16), (0xF00A#16, 0xF0FF#16), (0xF015#16, 0xF0FF#16),
   (0xF018#16, 0xF0FF#16), (0xF01E#16, 0xF0FF#16), (0xF029#16, 0xF0FF#16), (0xF033#16, 0xF0FF#16),
   (0xF055#16, 0xF0FF#16), (0xF065#16, 0xF0FF#16)]

/-- `op` selects a row of the opcode map: `op AND mask = match` (R64). -/
def selects (op : Word) (row : Word × Word) : Bool := op &&& row.2 == row.1

/-- The row of the opcode map an instruction stands for. -/
def Instr.row : Instr → Word × Word
  | .cls => (0x00E0#16, 0xFFFF#16)
  | .ret => (0x00EE#16, 0xFFFF#16)
  | .jp _ => (0x1000#16, 0xF000#16)
  | .call _ => (0x2000#16, 0xF000#16)
  | .seImm _ _ => (0x3000#16, 0xF000#16)
  | .sneImm _ _ => (0x4000#16, 0xF000#16)
  | .seReg _ _ => (0x5000#16, 0xF00F#16)
  | .ldImm _ _ => (0x6000#16, 0xF000#16)
  | .addImm _ _ => (0x7000#16, 0xF000#16)
  | .ldReg _ _ => (0x8000#16, 0xF00F#16)
  | .orReg _ _ => (0x8001#16, 0xF00F#16)
  | .andReg _ _ => (0x8002#16, 0xF00F#16)
  | .xorReg _ _ => (0x8003#16, 0xF00F#16)
  | .addReg _ _ => (0x8004#16, 0xF00F#16)
  | .subReg _ _ => (0x8005#16, 0xF00F#16)
  | .shr _ _ => (0x8006#16, 0xF00F#16)
  | .subnReg _ _ => (0x8007#16, 0xF00F#16)
  | .shl _ _ => (0x800E#16, 0xF00F#16)
  | .sneReg _ _ => (0x9000#16, 0xF00F#16)
  | .ldI _ => (0xA000#16, 0xF000#16)
  | .jpV0 _ => (0xB000#16, 0xF000#16)
  | .rnd _ _ => (0xC000#16, 0xF000#16)
  | .drw _ _ _ => (0xD000#16, 0xF000#16)
  | .skp _ => (0xE09E#16, 0xF0FF#16)
  | .sknp _ => (0xE0A1#16, 0xF0FF#16)
  | .ldVxDt _ => (0xF007#16, 0xF0FF#16)
  | .ldVxK _ => (0xF00A#16, 0xF0FF#16)
  | .ldDtVx _ => (0xF015#16, 0xF0FF#16)
  | .ldStVx _ => (0xF018#16, 0xF0FF#16)
  | .addI _ => (0xF01E#16, 0xF0FF#16)
  | .ldF _ => (0xF029#16, 0xF0FF#16)
  | .ldB _ => (0xF033#16, 0xF0FF#16)
  | .storeRegs _ => (0xF055#16, 0xF0FF#16)
  | .loadRegs _ => (0xF065#16, 0xF0FF#16)

/-! ### The host's entry -/

/-- The low `nbits` of `w` as an opcode, the bits above them zero. -/
def tableOpcode (nbits w : Nat) : Word := BitVec.ofNat 16 (w % 2 ^ nbits)

/-- The instruction this decoder reads from a word numbered as spec/opcode_table.json numbers it: the word is laid out
high byte first, as memory holds it (R44), and decoded as bytes. -/
def decodeTableWord (nbits w : Nat) : Option Instr :=
  match decodeBytes (opcodeBytes (tableOpcode nbits w)) with
  | .ok (i, _) => some i
  | .error _ => none

end Sys2Proof
end

