-- ==== Sys2Proof/Config.lean ====
section
/-! DEFINITION. What is fixed for this hardware (spec/00_scope.md R3) and its one free value, the random byte
(spec/43_register_alu.md R122). The 80 font bytes and the reset contents of the rest of memory are in
Sys2Proof/Machine/Memory.lean. -/

namespace Sys2Proof.Config

/-- MEM_SIZE: 4096 bytes, addresses 0x000 to 0xFFF (R3, R22). -/
abbrev memSize : Nat := 4096

/-- FONT_SIZE: 16 glyphs of 5 bytes at 0x000 to 0x04F (R3, R22). -/
abbrev fontSize : Nat := 80

/-- PROG_BASE: where `load` puts a program, and the reset value of PC (R3, R203). -/
abbrev progBase : Nat := 0x200

/-- ROM_MAX: the longest program `load` accepts, 4096 - 0x200 bytes (R3, R203). -/
abbrev romMax : Nat := 3584

/-- STACK_DEPTH: 16 return addresses (R3, R16). -/
abbrev stackDepth : Nat := 16

/-- The random byte of Cxnn (R122): "an 8-bit input of the `step` transaction, supplied by the environment and
sampled once by each executed Cxnn", any value, under no law. FREE VALUE: a constant with no body, applied to the
number of draws made so far, so no proof can know or relate any draw. Log entry 1. -/
opaque randomByte : Nat → Byte

end Sys2Proof.Config
end

