-- ==== Sys2Proof/Machine/State.lean ====
section
/-! DEFINITION. The machine's state (spec/10_state.md R10 to R22, R30, R31), its reset value (R32, R200), and the
reasons a step can stop (spec/60_exceptions.md R160). -/

namespace Sys2Proof.Machine

/-- `Mem` (R22): the listed bytes, by rising address; an unlisted address reads as its reset contents
(`memInit`, Sys2Proof/Machine/Memory.lean). The one canonical form is `Memory.wf` there. -/
abbrev Memory := List Host.Cell

/-- `FB` (R20): 32 rows of 64 one-bit cells; bit `px` of row `py` is the cell `FB[px][py]`, 1 lit. -/
abbrev Framebuffer := Vector (BitVec 64) 32

/-- Everything the spec gives the machine (R30: "no state beyond rules R10 to R22"), and the one counter of the
model's own, `draws`. -/
structure State where
  /-- `V[0]` to `V[15]` (R10, R11). -/
  v : Vector Byte 16
  /-- `I`, the index register (R12). -/
  ireg : Word
  /-- `PC`, the address of the next instruction to fetch (R13). -/
  pc : Word
  /-- `Stack[0]` to `Stack[15]`, a store of its own outside memory (R16). -/
  stack : Vector Word 16
  /-- `SP`, the number of stack entries in use, 0 to 16 (R16). -/
  sp : Fin 17
  /-- `DT`, the delay timer (R17). -/
  dt : Byte
  /-- `ST`, the sound timer (R17). -/
  st : Byte
  /-- `Key[0]` to `Key[15]`, true while pressed (R19). -/
  key : Vector Bool 16
  /-- `FB[px][py]` (R20). -/
  fb : Framebuffer
  /-- `DIRTY`, the draw-dirty flag (R21). -/
  dirty : Bool
  /-- `Mem[0x000]` to `Mem[0xFFF]` (R22). -/
  mem : Memory
  /-- NOT THE SPEC'S: how many random bytes the run has drawn. It only picks which input the next Cxnn samples
  (`Config.randomByte`, R122); the machine holds no generator (R30). Log entry 1. -/
  draws : Nat
  deriving DecidableEq, Repr

/-- The six failure outcomes (R160). The machine has no trap (R167): a failed transaction ends there and changes
nothing (R161), and a run ends at the first failed step (R162, R205). Every one is an outcome of the spec's own, so
none is a difference from the hardware: safe. -/
inductive Fault where
  /-- `OutOfBounds`: raised by the fetch when `PC + 1 > 0xFFF`, by Dxyn, Fx33, Fx55 and Fx65 when the bytes they
  touch go beyond 0xFFF, and by Fx1E when `I + V[x] > 0xFFFF`. Safe. -/
  | outOfBounds
  /-- `StackOverflow`: raised by 2nnn when sixteen calls are outstanding. Safe. -/
  | stackOverflow
  /-- `StackUnderflow`: raised by 00EE when the stack is empty. Safe. -/
  | stackUnderflow
  /-- `InvalidOpcode`: raised by a step whose opcode matches no row of the opcode map. Safe. -/
  | invalidOpcode
  /-- `InvalidKeyIndex`: raised by Ex9E and ExA1 when `V[x] > 15`, and by `set_key` for an index outside 0 to 15.
  Safe. -/
  | invalidKeyIndex
  /-- `RomTooLarge`: raised by `load` for more than 3584 bytes; no step raises it. Safe. -/
  | romTooLarge
  deriving DecidableEq, Repr

/-- Why the model gives no meaning. -/
inductive Refusal where
  /-- An arm of `exec` that has no meaning yet, by the row's mnemonic. No arm is left so; no meaning raises it.
  Safe. -/
  | notModelled (mnemonic : String)
  deriving DecidableEq, Repr

/-- The state after the `reset` transaction (R32, R200). V, I, PC and the font are the source's; SP, the stack, the
timers, the keys, the framebuffer and DIRTY are 0 by the spec's decision D11, memory outside the font by D28 (log
entry 3). Nothing is listed in memory, so every byte reads as its reset contents. `draws` is the model's own: DESIGN
CHOICE 0 (log entry 1). -/
def State.reset : State where
  v := Vector.replicate 16 0
  ireg := 0
  pc := 0x200
  stack := Vector.replicate 16 0
  sp := 0
  dt := 0
  st := 0
  key := Vector.replicate 16 false
  fb := Vector.replicate 32 0
  dirty := false
  mem := []
  draws := 0

end Sys2Proof.Machine
end

