-- ==== Sys2Proof/Machine/Memory.lean ====
section
/-! DEFINITION. The 4096-byte memory (spec/10_state.md R22; spec/20_memory.md R40 to R43, R47): its reset contents, its
canonical form, reading and writing bytes, and the bound check. Address arithmetic is over the integers: nothing wraps
at 0xFFF. -/

namespace Sys2Proof.Machine

/-- FONT, R22's default table, digits 0 to 7 (a parameter of the spec with this default, D10; log entry 4). -/
def fontLow : List Byte :=
  [0xF0, 0x90, 0x90, 0x90, 0xF0] ++ [0x20, 0x60, 0x20, 0x20, 0x70] ++
  [0xF0, 0x10, 0xF0, 0x80, 0xF0] ++ [0xF0, 0x10, 0xF0, 0x10, 0xF0] ++
  [0x90, 0x90, 0xF0, 0x10, 0x10] ++ [0xF0, 0x80, 0xF0, 0x10, 0xF0] ++
  [0xF0, 0x80, 0xF0, 0x90, 0xF0] ++ [0xF0, 0x10, 0x20, 0x40, 0x40]

/-- FONT, R22's default table, digits 8 to F. -/
def fontHigh : List Byte :=
  [0xF0, 0x90, 0xF0, 0x90, 0xF0] ++ [0xF0, 0x90, 0xF0, 0x10, 0xF0] ++
  [0xF0, 0x90, 0xF0, 0x90, 0x90] ++ [0xE0, 0x90, 0xE0, 0x90, 0xE0] ++
  [0xF0, 0x80, 0x80, 0x80, 0xF0] ++ [0xE0, 0x90, 0x90, 0x90, 0xE0] ++
  [0xF0, 0x80, 0xF0, 0x80, 0xF0] ++ [0xF0, 0x80, 0xF0, 0x80, 0x80]

/-- FONT: 80 bytes, glyph `d` at `5*d` to `5*d + 4` (R22). -/
def font : List Byte := fontLow ++ fontHigh

/-- The reset contents of memory, which is what an unlisted address reads as: the font at 0x000 to 0x04F, MEM_INIT =
0x00 above it (R22, R32). -/
def memInit (a : Nat) : Byte :=
  if a < Config.fontSize then font.getD a 0 else 0

/-- The canonical form: addresses strictly rising and inside 0x000 to 0xFFF, and no entry equal to the reset contents
of its address, so that equal memories are equal lists. -/
abbrev Memory.wf (m : Memory) : Prop :=
  m.Pairwise (fun c d => c.1 < d.1) ∧ ∀ c ∈ m, c.1 < Config.memSize ∧ c.2 ≠ memInit c.1

/-- The byte at an address. A read has no side effect (R41). -/
def Memory.read : Memory → Nat → Byte
  | [], a => memInit a
  | (k, b) :: rest, a => if a = k then b else Memory.read rest a

/-- Put a byte at the head of a list whose addresses all lie above `a`, unless it is what `a` reads as unlisted. -/
def Memory.cons (a : Nat) (b : Byte) (rest : Memory) : Memory :=
  if b = memInit a then rest else (a, b) :: rest

/-- Write one byte, keeping the canonical form (R42, `n = 1`, after its bound check). -/
def Memory.write : Memory → Nat → Byte → Memory
  | [], a, b => Memory.cons a b []
  | (k, c) :: rest, a, b =>
    if a < k then Memory.cons a b ((k, c) :: rest)
    else if a = k then Memory.cons a b rest
    else (k, c) :: Memory.write rest a b

/-- The `n` bytes from `base` up, in address order (R41). -/
def Memory.readList (m : Memory) (base : Nat) : Nat → List Byte
  | 0 => []
  | n + 1 => m.read base :: Memory.readList m (base + 1) n

/-- Write bytes from `base` up, in address order. -/
def Memory.writeList (m : Memory) (base : Nat) : List Byte → Memory
  | [] => m
  | b :: bs => Memory.writeList (m.write base b) (base + 1) bs

/-- The bound check of R43 for `n` bytes from `base`: `base + n - 1 <= 0xFFF`, over the integers; an empty range never
fails (R43's row for Dxyn with `n = 0`). -/
def rangeOk (base n : Nat) : Bool :=
  n == 0 || decide (base + n ≤ Config.memSize)

end Sys2Proof.Machine
end

