-- ==== Sys2Proof/Machine/Ops.lean ====
section
/-! DEFINITION. The named operations on the state that the meanings are written over: registers, PC, stack, memory,
framebuffer, keys, the random input, the fetch, and a failure. -/

namespace Sys2Proof.Machine

/-! ### Outcomes (spec/60_exceptions.md R160 to R167) -/

/-- The instruction commits with this state (R82, R161). -/
def commit (s : State) : Host.Outcome State Fault Refusal := .next s

/-- `raise F` (R4, R161, R167): what taking an exception is on this machine. There is no trap: nothing is saved, no mode
changes, control goes nowhere, and "the state after a failed `step` is bit for bit the state before it". -/
def raise (f : Fault) : Host.Outcome State Fault Refusal := .fault f

/-! ### Registers and PC (spec/10_state.md R10 to R13) -/

/-- `V[r]`. -/
def State.reg (s : State) (r : Reg) : Byte := s.v[r]

/-- `V[r] <- b`. -/
def State.setReg (s : State) (r : Reg) (b : Byte) : State := { s with v := s.v.set r b }

/-- `I <- w`. -/
def State.setI (s : State) (w : Word) : State := { s with ireg := w }

/-- `PC <- w`. -/
def State.setPc (s : State) (w : Word) : State := { s with pc := w }

/-- `next`: `PC <- PC + 2` (R85, default class). -/
def State.advance (s : State) : State := s.setPc (s.pc + 2#16)

/-- `skip`: `PC <- PC + 4` (R85); the skipped bytes are not examined. -/
def State.skip (s : State) : State := s.setPc (s.pc + 4#16)

/-- The conditional class of R85: `PC + 4` where the condition holds, else `PC + 2`. -/
def State.skipIf (s : State) (c : Bool) : State := if c then s.skip else s.advance

/-- `V[k] <- bytes[0]`, `V[k+1] <- bytes[1]` and so on; there is no register above VF. -/
def loadInto (k : Nat) : List Byte → Vector Byte 16 → Vector Byte 16
  | [], v => v
  | b :: bs, v => loadInto (k + 1) bs (v.setIfInBounds k b)

/-- `V[0]` to `V[n-1]`, in order. -/
def State.regList (s : State) (n : Nat) : List Byte := s.v.toList.take n

/-- Load registers V0 up from a list of bytes. -/
def State.setRegList (s : State) (bytes : List Byte) : State := { s with v := loadInto 0 bytes s.v }

/-! ### The return stack (spec/10_state.md R16) -/

/-- Push: `Stack[SP] <- w`, `SP <- SP + 1`; none when the sixteen entries are in use. -/
def State.push? (s : State) (w : Word) : Option State :=
  if h : s.sp.val < Config.stackDepth then
    some { s with stack := s.stack.set s.sp.val w h, sp := ⟨s.sp.val + 1, Nat.succ_lt_succ h⟩ }
  else none

/-- Pop: the top entry `Stack[SP-1]` and the state with `SP <- SP - 1`; none when the stack is empty. The popped entry
stays in its place (R90). -/
def State.pop? (s : State) : Option (Word × State) :=
  if h : s.sp.val = 0 then none
  else
    some (s.stack[s.sp.val - 1]'(by have := s.sp.isLt; omega),
      { s with sp := ⟨s.sp.val - 1, by have := s.sp.isLt; omega⟩ })

/-! ### Timers, beep, keys (spec/10_state.md R17 to R19) -/

/-- `DT <- b`. -/
def State.setDt (s : State) (b : Byte) : State := { s with dt := b }

/-- `ST <- b`. -/
def State.setSt (s : State) (b : Byte) : State := { s with st := b }

/-- The level `BEEP = (ST != 0)`, an output, not state (R18). -/
def State.beep (s : State) : Bool := s.st != 0

/-- `Key[k]`, none for a `k` that names no key. -/
def State.key? (s : State) (k : Nat) : Option Bool := s.key[k]?

/-- The smallest `k` in 0 to 15 with `Key[k] = 1`, none when no key is pressed (R153). -/
def State.lowestKey? (s : State) : Option Nat := s.key.toList.findIdx? (fun pressed => pressed)

/-! ### Memory (spec/20_memory.md R41 to R43) -/

/-- The byte `Mem[a]`. -/
def State.byte (s : State) (a : Nat) : Byte := s.mem.read a

/-- The bytes of a range already checked. -/
def State.loadBytes (s : State) (base n : Nat) : List Byte := s.mem.readList base n

/-- Write bytes over a range already checked. -/
def State.storeBytes (s : State) (base : Nat) (bytes : List Byte) : State :=
  { s with mem := s.mem.writeList base bytes }

/-- The whole range is checked before anything is written (R43): `OutOfBounds`, or go on. -/
def withRange (base n : Nat) (go : Host.Outcome State Fault Refusal) : Host.Outcome State Fault Refusal :=
  if rangeOk base n then go else raise .outOfBounds

/-! ### Framebuffer (spec/10_state.md R20, R21) -/

/-- `FB[px][py]`. -/
def Framebuffer.pixel (fb : Framebuffer) (px : Fin 64) (py : Fin 32) : Bool := fb[py].getLsbD px

/-- `FB[px][py] <- FB[px][py] XOR 1`. -/
def Framebuffer.flip (fb : Framebuffer) (px : Fin 64) (py : Fin 32) : Framebuffer :=
  fb.set py (fb[py] ^^^ (1#64 <<< px.val))

/-- `FB[px][py]` as the rendering port reads it (spec/40_step_cycle.md R80). -/
def State.pixel (s : State) (px : Fin 64) (py : Fin 32) : Bool := s.fb.pixel px py

/-- `FB <- fb` and `DIRTY <- 1`. -/
def State.setFb (s : State) (fb : Framebuffer) : State := { s with fb := fb, dirty := true }

/-! ### The random input (spec/43_register_alu.md R122) -/

/-- The random byte a Cxnn samples in this state: a free value. -/
def State.randomByte (s : State) : Byte := Config.randomByte s.draws

/-- The draw is used up: the next Cxnn samples another byte. -/
def State.nextDraw (s : State) : State := { s with draws := s.draws + 1 }

/-! ### Fetch (spec/40_step_cycle.md R83) -/

/-- The opcode at PC, `Mem[PC] * 256 + Mem[PC+1]`; none when `PC + 1 > 0xFFF`. PC does not change. -/
def State.fetch? (s : State) : Option Word :=
  if rangeOk s.pc.toNat 2 then some (opcodeOfBytes (s.byte s.pc.toNat) (s.byte (s.pc.toNat + 1))) else none

/-- Place an opcode at PC, high byte first, where a fetch can read it; where `PC + 1 > 0xFFF` no fetch can succeed and
nothing is placed. -/
def State.placeOpcode (s : State) (op : Word) : State :=
  if rangeOk s.pc.toNat 2 then s.storeBytes s.pc.toNat (opcodeBytes op) else s

end Sys2Proof.Machine
end

