-- ==== Sys2Proof/Machine/Operands.lean ====
section
/-! DEFINITION. The operand forms of the 34 instructions (spec/30_encoding.md R63; spec/44_index_memory.md, addressing
modes): registers are read by `State.reg`; here are the zero-extended immediates, the index-plus-offset address, the
wrapped screen coordinates and the decimal digits. -/

namespace Sys2Proof.Machine

/-- `zext_16(nnn)`: a 12-bit address in a 16-bit register (R63). -/
def zextAddr (nnn : Addr12) : Word := nnn.setWidth 16

/-- `zext_16(v)`: a register value in a 16-bit register (R93). -/
def zextByte (b : Byte) : Word := b.setWidth 16

/-- The base of every data access, I as an integer; byte `k` of an access is at `I + k`, with no wrap
(spec/44_index_memory.md, addressing modes). -/
def State.base (s : State) : Nat := s.ireg.toNat

/-- A horizontal coordinate mod 64 (R141). -/
def wrapX (n : Nat) : Fin 64 := Fin.ofNat 64 n

/-- A vertical coordinate mod 32 (R141). -/
def wrapY (n : Nat) : Fin 32 := Fin.ofNat 32 n

/-- The decimal digits of a byte: hundreds, tens, ones (R133). -/
def bcdDigits (b : Byte) : List Byte :=
  [BitVec.ofNat 8 (b.toNat / 100), BitVec.ofNat 8 (b.toNat / 10 % 10), BitVec.ofNat 8 (b.toNat % 10)]

end Sys2Proof.Machine
end

