-- ==== Sys2Proof/Machine/Flags.lean ====
section
/-! DEFINITION. The values written to VF as a flag (spec/10_state.md R11; spec/43_register_alu.md R123): always 0 or 1.
Dxyn's collision flag is computed with its drawing, in Sys2Proof/Machine/Display.lean. -/

namespace Sys2Proof.Machine

/-- A flag as the byte VF holds: 0 or 1. -/
def flagByte (c : Bool) : Byte := if c then 1 else 0

/-- Carry of `a + b`: 1 iff `a + b > 255` over the integers (R116, R123). -/
def carryFlag (a b : Byte) : Byte := flagByte (decide (a.toNat + b.toNat > 255))

/-- No-borrow of `a - b`: 1 iff minuend >= subtrahend, 0 if `b > a` (R117, R119, R123). -/
def noBorrowFlag (a b : Byte) : Byte := flagByte (decide (b.toNat ≤ a.toNat))

/-- The bit a shift right by one drops, `a mod 2` (R118). -/
def shiftedOutRight (a : Byte) : Byte := flagByte (a.getLsbD 0)

/-- The bit a shift left by one drops, `a div 128` (R120). -/
def shiftedOutLeft (a : Byte) : Byte := flagByte (a.getLsbD 7)

end Sys2Proof.Machine
end

