-- ==== Sys2Proof/Machine/ControlFlow.lean ====
section
/-! DEFINITION. Control transfer: 00EE, 1nnn, 2nnn, Bnnn (spec/41_control_flow.md R90 to R93). Targets are absolute and
are not checked here: a target the machine cannot fetch from fails the next step. -/

namespace Sys2Proof.Machine

/-- 00EE (R90): PC takes the popped entry, which already is the address after the call. -/
def execRet (s : State) : Host.Outcome State Fault Refusal :=
  match s.pop? with
  | some (target, t) => commit (t.setPc target)
  | none => raise .stackUnderflow

/-- 1nnn (R91). -/
def execJp (nnn : Addr12) (s : State) : Host.Outcome State Fault Refusal :=
  commit (s.setPc (zextAddr nnn))

/-- 2nnn (R92): pushes `PC + 2`. -/
def execCall (nnn : Addr12) (s : State) : Host.Outcome State Fault Refusal :=
  match s.push? (s.pc + 2#16) with
  | some t => commit (t.setPc (zextAddr nnn))
  | none => raise .stackOverflow

/-- Bnnn (R93): the offset is V0 whatever the nibbles of `nnn` are, and the sum is not reduced mod 4096. -/
def execJpV0 (nnn : Addr12) (s : State) : Host.Outcome State Fault Refusal :=
  commit (s.setPc (zextAddr nnn + zextByte (s.reg .v0)))

end Sys2Proof.Machine
end

