-- ==== Sys2Proof/Machine/Display.lean ====
section
/-! DEFINITION. Display: 00E0 and Dxyn (spec/45_display.md R140 to R144). -/

namespace Sys2Proof.Machine

/-- A framebuffer being drawn on, and whether a cell has gone lit to unlit so far. -/
structure Canvas where
  /-- The cells. -/
  fb : Framebuffer
  /-- The collision flag. -/
  collision : Bool
  deriving DecidableEq, Repr

/-- One set sprite bit on the cell (`px`, `py`): XOR it, and note a lit cell going out (R141). -/
def toggleCell (px : Fin 64) (py : Fin 32) (c : Canvas) : Canvas :=
  { fb := c.fb.flip px py, collision := c.collision || c.fb.pixel px py }

/-- One sprite bit of a row: bit `7 - c` of the byte is column `c` (R142); a zero bit leaves its cell alone. -/
def drawColumn (x0 : Nat) (py : Fin 32) (b : Byte) (canvas : Canvas) (c : Nat) : Canvas :=
  if b.getLsbD (7 - c) then toggleCell (wrapX (x0 + c)) py canvas else canvas

/-- One sprite row, columns 0 to 7. -/
def drawRow (x0 : Nat) (py : Fin 32) (b : Byte) (canvas : Canvas) : Canvas :=
  [0, 1, 2, 3, 4, 5, 6, 7].foldl (drawColumn x0 py b) canvas

/-- The rows of a sprite, the first at vertical coordinate `y`. -/
def drawRows (x0 : Nat) : Nat → List Byte → Canvas → Canvas
  | _, [], canvas => canvas
  | y, b :: bs, canvas => drawRows x0 (y + 1) bs (drawRow x0 (wrapY y) b canvas)

/-- The canvas a Dxyn leaves: the sprite's `n` bytes at I drawn at (`V[x]`, `V[y]`), both read before the flag is
written. -/
def State.drawn (s : State) (x y : Reg) (n : Nat) : Canvas :=
  drawRows (s.reg x).toNat (s.reg y).toNat (s.loadBytes s.base n) { fb := s.fb, collision := false }

/-- 00E0 (R140): DIRTY is set whether or not a cell was lit. -/
def execCls (s : State) : Host.Outcome State Fault Refusal :=
  commit (s.setFb (Vector.replicate 32 0)).advance

/-- Dxyn (R141, R143): with `n = 0` nothing is read or checked, VF is 0 and DIRTY is set. -/
def execDrw (x y : Reg) (n : Nat) (s : State) : Host.Outcome State Fault Refusal :=
  withRange s.base n
    (commit ((s.setFb (s.drawn x y n).fb).setReg .vf (flagByte (s.drawn x y n).collision)).advance)

end Sys2Proof.Machine
end

