-- ==== Sys2Proof/Machine/IndexMemory.lean ====
section
/-! DEFINITION. Index register, loads and stores: Annn, Fx1E, Fx29, Fx33, Fx55, Fx65 (spec/44_index_memory.md R130 to
R135). I is changed by no load or store. -/

namespace Sys2Proof.Machine

/-- Annn (R130). -/
def execLdI (nnn : Addr12) (s : State) : Host.Outcome State Fault Refusal :=
  commit (s.setI (zextAddr nnn)).advance

/-- Fx1E (R131): all 16 bits of the sum are kept; one that does not fit fails; VF is not written. -/
def execAddI (x : Reg) (s : State) : Host.Outcome State Fault Refusal :=
  if s.ireg.toNat + (s.reg x).toNat > 0xFFFF then raise .outOfBounds
  else commit (s.setI (BitVec.ofNat 16 (s.ireg.toNat + (s.reg x).toNat))).advance

/-- Fx29 (R132): the whole 8-bit value times 5. -/
def execLdF (x : Reg) (s : State) : Host.Outcome State Fault Refusal :=
  commit (s.setI (BitVec.ofNat 16 (5 * (s.reg x).toNat))).advance

/-- Fx33 (R133). -/
def execLdB (x : Reg) (s : State) : Host.Outcome State Fault Refusal :=
  withRange s.base 3 (commit (s.storeBytes s.base (bcdDigits (s.reg x))).advance)

/-- Fx55 (R134): `x + 1` registers. -/
def execStoreRegs (x : Reg) (s : State) : Host.Outcome State Fault Refusal :=
  withRange s.base (x.val + 1) (commit (s.storeBytes s.base (s.regList (x.val + 1))).advance)

/-- Fx65 (R135): `x + 1` registers; those above `x` keep their values. -/
def execLoadRegs (x : Reg) (s : State) : Host.Outcome State Fault Refusal :=
  withRange s.base (x.val + 1) (commit (s.setRegList (s.loadBytes s.base (x.val + 1))).advance)

end Sys2Proof.Machine
end

