-- ==== Sys2Proof/Machine/KeypadTimers.lean ====
section
/-! DEFINITION. Keypad and timer instructions: Ex9E, ExA1, Fx07, Fx0A, Fx15, Fx18 (spec/46_keypad_timers.md R150 to
R155). The keys are sampled as they stand when the step begins. -/

namespace Sys2Proof.Machine

/-- Ex9E (R150): the key index is the value `V[x]`; one above 15 names no key and fails. -/
def execSkp (x : Reg) (s : State) : Host.Outcome State Fault Refusal :=
  match s.key? (s.reg x).toNat with
  | some pressed => commit (s.skipIf pressed)
  | none => raise .invalidKeyIndex

/-- ExA1 (R151). -/
def execSknp (x : Reg) (s : State) : Host.Outcome State Fault Refusal :=
  match s.key? (s.reg x).toNat with
  | some pressed => commit (s.skipIf (!pressed))
  | none => raise .invalidKeyIndex

/-- Fx07 (R152). -/
def execLdVxDt (x : Reg) (s : State) : Host.Outcome State Fault Refusal :=
  commit (s.setReg x s.dt).advance

/-- Fx0A (R153): with no key pressed the step commits with no change at all, and the next step fetches it again. -/
def execLdVxK (x : Reg) (s : State) : Host.Outcome State Fault Refusal :=
  match s.lowestKey? with
  | some k => commit (s.setReg x (BitVec.ofNat 8 k)).advance
  | none => commit s

/-- Fx15 (R154). -/
def execLdDtVx (x : Reg) (s : State) : Host.Outcome State Fault Refusal :=
  commit (s.setDt (s.reg x)).advance

/-- Fx18 (R155); its beep events are the edges of `State.beep` (R18). -/
def execLdStVx (x : Reg) (s : State) : Host.Outcome State Fault Refusal :=
  commit (s.setSt (s.reg x)).advance

end Sys2Proof.Machine
end

