-- ==== Sys2Proof/Machine/RegisterAlu.lean ====
section
/-! DEFINITION. Register loads and ALU: 6xnn, 7xnn, 8xy0 to 8xy7, 8xyE, Cxnn (spec/43_register_alu.md R110 to R123).
Every operand is read from the state before the instruction; the writes are made in the order the rule lists them, so
that with `x = F` the later one stays (spec/40_step_cycle.md R86). -/

namespace Sys2Proof.Machine

/-- 6xnn (R110). -/
def execLdImm (x : Reg) (nn : Byte) (s : State) : Host.Outcome State Fault Refusal :=
  commit (s.setReg x nn).advance

/-- 7xnn (R111): VF is not written as a flag. -/
def execAddImm (x : Reg) (nn : Byte) (s : State) : Host.Outcome State Fault Refusal :=
  commit (s.setReg x (s.reg x + nn)).advance

/-- 8xy0 (R112). -/
def execLdReg (x y : Reg) (s : State) : Host.Outcome State Fault Refusal :=
  commit (s.setReg x (s.reg y)).advance

/-- 8xy1 (R113). -/
def execOrReg (x y : Reg) (s : State) : Host.Outcome State Fault Refusal :=
  commit (s.setReg x (s.reg x ||| s.reg y)).advance

/-- 8xy2 (R114). -/
def execAndReg (x y : Reg) (s : State) : Host.Outcome State Fault Refusal :=
  commit (s.setReg x (s.reg x &&& s.reg y)).advance

/-- 8xy3 (R115). -/
def execXorReg (x y : Reg) (s : State) : Host.Outcome State Fault Refusal :=
  commit (s.setReg x (s.reg x ^^^ s.reg y)).advance

/-- 8xy4 (R116): the sum first, then the carry. -/
def execAddReg (x y : Reg) (s : State) : Host.Outcome State Fault Refusal :=
  commit ((s.setReg x (s.reg x + s.reg y)).setReg .vf (carryFlag (s.reg x) (s.reg y))).advance

/-- 8xy5 (R117): the difference first, then NOT borrow. -/
def execSubReg (x y : Reg) (s : State) : Host.Outcome State Fault Refusal :=
  commit ((s.setReg x (s.reg x - s.reg y)).setReg .vf (noBorrowFlag (s.reg x) (s.reg y))).advance

/-- 8xy6 (R118): the flag first, then the shifted value; `V[y]` is neither read nor written. -/
def execShr (x : Reg) (s : State) : Host.Outcome State Fault Refusal :=
  commit ((s.setReg .vf (shiftedOutRight (s.reg x))).setReg x (s.reg x >>> 1)).advance

/-- 8xy7 (R119): minuend `V[y]`, subtrahend `V[x]`; the difference first, then NOT borrow. -/
def execSubnReg (x y : Reg) (s : State) : Host.Outcome State Fault Refusal :=
  commit ((s.setReg x (s.reg y - s.reg x)).setReg .vf (noBorrowFlag (s.reg y) (s.reg x))).advance

/-- 8xyE (R120): the flag first, then the shifted value; `V[y]` is neither read nor written. -/
def execShl (x : Reg) (s : State) : Host.Outcome State Fault Refusal :=
  commit ((s.setReg .vf (shiftedOutLeft (s.reg x))).setReg x (s.reg x <<< 1)).advance

/-- Cxnn with the random byte `r` given (R121). -/
def rndWith (r : Byte) (x : Reg) (nn : Byte) (s : State) : State := (s.setReg x (nn &&& r)).nextDraw.advance

/-- Cxnn (R121): samples one random byte, a free value (R122). -/
def execRnd (x : Reg) (nn : Byte) (s : State) : Host.Outcome State Fault Refusal :=
  commit (rndWith s.randomByte x nn s)

end Sys2Proof.Machine
end

