-- ==== Sys2Proof/Machine/Skips.lean ====
section
/-! DEFINITION. Conditional skips on registers: 3xnn, 4xnn, 5xy0, 9xy0 (spec/42_skips.md R100 to R103). -/

namespace Sys2Proof.Machine

/-- 3xnn (R100). -/
def execSeImm (x : Reg) (nn : Byte) (s : State) : Host.Outcome State Fault Refusal :=
  commit (s.skipIf (s.reg x == nn))

/-- 4xnn (R101). -/
def execSneImm (x : Reg) (nn : Byte) (s : State) : Host.Outcome State Fault Refusal :=
  commit (s.skipIf (s.reg x != nn))

/-- 5xy0 (R102). -/
def execSeReg (x y : Reg) (s : State) : Host.Outcome State Fault Refusal :=
  commit (s.skipIf (s.reg x == s.reg y))

/-- 9xy0 (R103). -/
def execSneReg (x y : Reg) (s : State) : Host.Outcome State Fault Refusal :=
  commit (s.skipIf (s.reg x != s.reg y))

end Sys2Proof.Machine
end

