-- ==== Sys2Proof/Machine/Step.lean ====
section
/-! DEFINITION. The `step` transaction (spec/40_step_cycle.md R82): exactly one fetch-decode-execute cycle. -/

namespace Sys2Proof.Machine

/-- R82, with R164's order of checks: the fetch bound, then the opcode, then the instruction's own check. The random
input of R82's `step(r)` is `State.randomByte`. -/
def step (s : State) : Host.Outcome State Fault Refusal :=
  match s.fetch? with
  | none => raise .outOfBounds
  | some op =>
    match decode op with
    | .ok i => exec i s
    | .error _ => raise .invalidOpcode

/-- `s` with an opcode, numbered as spec/opcode_table.json numbers it, stored where the next step fetches: at PC, high
byte first. Where `PC + 1 > 0xFFF` no fetch can succeed and `s` is left as it is. It stands for the `load` of a program
whose next instruction this is (log entry 2). -/
def State.withFetchWord (s : State) (nbits w : Nat) : State := s.placeOpcode (tableOpcode nbits w)

end Sys2Proof.Machine
end

