-- ==== Sys2Proof/Machine/Transactions.lean ====
section
/-! DEFINITION. Everything that acts on the core (spec/40_step_cycle.md R80, R81): `reset`, `load`, `step`,
`tick_timers`, `set_key` and the port action `ack_dirty`, each atomic; their outcomes and beep events; the status
output WAITING; and schedules, any finite sequence of transactions. -/

namespace Sys2Proof.Machine

/-! ### The transactions -/

/-- `reset` (spec/70_reset_and_hazards.md R200, R202): at any time, every element at its reset value, the loaded program
gone. The environment's random input is not state of the machine, so the count of draws goes on (log entry 1). -/
def State.afterReset (s : State) : State := { State.reset with draws := s.draws }

/-- `load(rom)` (spec/70_reset_and_hazards.md R203): exactly `len` bytes from 0x200, or `RomTooLarge` and none. -/
def loadRom (rom : List Byte) (s : State) : Host.Outcome State Fault Refusal :=
  if rom.length > Config.romMax then raise .romTooLarge
  else commit (s.storeBytes Config.progBase rom)

/-- A count-down timer after one tick: it never goes below 0 (R17, R170). -/
def tickDown (b : Byte) : Byte := if b = 0 then 0 else b - 1

/-- `tick_timers` (spec/60_exceptions.md R170): DT and ST, and nothing else. -/
def tickTimers (s : State) : State := (s.setDt (tickDown s.dt)).setSt (tickDown s.st)

/-- `set_key(index, pressed)` (spec/60_exceptions.md R172): one key, or `InvalidKeyIndex` for an index outside 0 to 15,
a negative one included. -/
def setKey (index : Int) (pressed : Bool) (s : State) : Host.Outcome State Fault Refusal :=
  if h : 0 ≤ index ∧ index < 16 then
    commit { s with key := s.key.set index.toNat pressed (by omega) }
  else raise .invalidKeyIndex

/-- `ack_dirty` (R21, R80): the renderer clears DIRTY; nothing else changes. -/
def ackDirty (s : State) : State := { s with dirty := false }

/-- The acts on the core (R80). -/
inductive Transaction where
  /-- By the driver; performed again mid-run it has the same effect (R202). -/
  | reset
  /-- By the ROM-loading collaborator; accepted between any two transactions (R203). -/
  | load (rom : List Byte)
  /-- By the driver. -/
  | step
  /-- By the driver. -/
  | tickTimers
  /-- By the input collaborator. -/
  | setKey (index : Int) (pressed : Bool)
  /-- By the rendering collaborator. -/
  | ackDirty
  deriving DecidableEq, Repr

/-- What a transaction does: the state it commits, or its failure. -/
def transact (t : Transaction) (s : State) : Host.Outcome State Fault Refusal :=
  match t with
  | .reset => commit s.afterReset
  | .load rom => loadRom rom s
  | .step => step s
  | .tickTimers => commit (tickTimers s)
  | .setKey index pressed => setKey index pressed s
  | .ackDirty => commit (ackDirty s)

/-! ### Outcomes and beep events -/

/-- The edges of BEEP the audio collaborator is told of (R18). -/
inductive BeepEvent where
  /-- BEEP went from 0 to 1. -/
  | startBeep
  /-- BEEP went from 1 to 0. -/
  | stopBeep
  deriving DecidableEq, Repr

/-- The event of a transaction that took `s` to `t`: the edge of the level, if there is one (R18). -/
def beepEdge (s t : State) : Option BeepEvent :=
  match s.beep, t.beep with
  | false, true => some .startBeep
  | true, false => some .stopBeep
  | false, false => none
  | true, true => none

/-- How a transaction ended, as the driver is told (R160, R162). -/
inductive Status where
  /-- It committed. -/
  | ok
  /-- It failed, with this kind and nothing more (R163). -/
  | failed (f : Fault)
  /-- The model gave it no meaning; no transaction ends so. -/
  | refused (r : Refusal)
  deriving DecidableEq, Repr

/-- The kinds' numeric codes, labels of the spec's own (R160, D15). -/
def Fault.code : Fault → Nat
  | .outOfBounds => 1
  | .stackOverflow => 2
  | .stackUnderflow => 3
  | .invalidOpcode => 4
  | .invalidKeyIndex => 5
  | .romTooLarge => 6

/-- What is seen of one transaction from outside: the state after it, its status, its beep event. -/
structure Response where
  /-- The state after. -/
  state : State
  /-- The outcome. -/
  status : Status
  /-- The beep event, if one fired. -/
  event : Option BeepEvent
  deriving DecidableEq, Repr

/-- Perform a transaction: it commits, or it fails and changes nothing (R161). No failure is latched (R162). -/
def perform (t : Transaction) (s : State) : Response :=
  match transact t s with
  | .next s' => { state := s', status := .ok, event := beepEdge s s' }
  | .fault f => { state := s, status := .failed f, event := none }
  | .refused r => { state := s, status := .refused r, event := none }

/-- The state after a schedule (R81: any finite interleaving is legal). -/
def runSchedule : List Transaction → State → State
  | [], s => s
  | t :: ts, s => runSchedule ts (perform t s).state

/-- The beep events a schedule fires, in order. -/
def eventsOf : List Transaction → State → List BeepEvent
  | [], _ => []
  | t :: ts, s => (perform t s).event.toList ++ eventsOf ts (perform t s).state

/-! ### Status outputs -/

/-- WAITING (R87): the instruction at PC is Fx0A and no key is pressed; a pure function of the state. -/
def State.waiting (s : State) : Bool :=
  match s.fetch? with
  | none => false
  | some op =>
    match decode op with
    | .ok (.ldVxK _) => s.lowestKey?.isNone
    | _ => false

/-- The conventional end of a program (spec/70_reset_and_hazards.md R205 (b)): PC at an address that holds `1nnn` with
`nnn = PC`. -/
def State.selfJump (s : State) : Bool :=
  match s.fetch? with
  | none => false
  | some op =>
    match decode op with
    | .ok (.jp nnn) => zextAddr nnn == s.pc
    | _ => false

end Sys2Proof.Machine
end

