-- ==== Sys2Proof/Safety.lean ====
section
/-! DEFINITION. The terms claims are stated in: safe and ended runs, the invariant, what a state is made of and what an
act may change in it (the frame), and the spec's own tables of next PCs, failures and writers, restated as functions
for claims to be checked against. Nothing here is used by the machine. -/

namespace Sys2Proof.Machine

/-! ### Runs (spec/60_exceptions.md R162; spec/70_reset_and_hazards.md R205) -/

/-- A step that commits. -/
def SafeStep (s : State) : Prop := ∃ t, step s = .next t

/-- `k` steps that all commit, ending in `t`. -/
def StepsTo : Nat → State → State → Prop
  | 0, s, t => t = s
  | k + 1, s, t => ∃ u, step s = .next u ∧ StepsTo k u t

/-- The end of a run: a failure outcome, or a jump to itself (R205). -/
def Ended (s : State) : Prop := (∃ f, step s = .fault f) ∨ s.selfJump = true

/-! ### The invariant -/

/-- Memory is in its canonical form with all its addresses in 0x000 to 0xFFF (R22); PC is at most 0x10FE and every
stack entry in use at most 0x1000 (R15, so the 16-bit PC never wraps). SP's range 0 to 16 (R16) is in its type. -/
structure State.Inv (s : State) : Prop where
  /-- Memory's canonical form. -/
  memory : s.mem.wf
  /-- The range of PC. -/
  pc : s.pc.toNat ≤ 0x10FE
  /-- The range of the return addresses in use. -/
  stack : ∀ k : Fin 16, k.val < s.sp.val → s.stack[k].toNat ≤ 0x1000

/-! ### Parts of the state, and frames -/

/-- The elements of the state (R10 to R22), cell by cell, as a claim observes them. -/
inductive Part where
  /-- `V[r]`. -/
  | reg (r : Reg)
  /-- `I`. -/
  | index
  /-- `PC`. -/
  | pc
  /-- `SP`. -/
  | sp
  /-- `Stack[k]`. -/
  | stackEntry (k : Fin 16)
  /-- `DT`. -/
  | dt
  /-- `ST`. -/
  | st
  /-- `Key[k]`. -/
  | key (k : Fin 16)
  /-- `FB[px][py]`. -/
  | pixel (px : Fin 64) (py : Fin 32)
  /-- `DIRTY`. -/
  | dirty
  /-- `Mem[a]`, through the model's read of one byte. -/
  | byte (a : Nat)
  /-- The model's own count of random draws. -/
  | draws
  deriving DecidableEq, Repr

/-- A part reads the same in both states. -/
def Unchanged (s t : State) : Part → Prop
  | .reg r => t.reg r = s.reg r
  | .index => t.ireg = s.ireg
  | .pc => t.pc = s.pc
  | .sp => t.sp = s.sp
  | .stackEntry k => t.stack[k] = s.stack[k]
  | .dt => t.dt = s.dt
  | .st => t.st = s.st
  | .key k => t.key[k] = s.key[k]
  | .pixel px py => t.pixel px py = s.pixel px py
  | .dirty => t.dirty = s.dirty
  | .byte a => t.byte a = s.byte a
  | .draws => t.draws = s.draws

/-- THE FRAME: every part outside `parts` is unchanged. -/
def OnlyChanges (s t : State) (parts : Set Part) : Prop := ∀ p, p ∉ parts → Unchanged s t p

/-- The `n` bytes of memory from `base` up. -/
def bytesFrom (base n : Nat) : Set Part := {p | ∃ k < n, p = .byte (base + k)}

/-- What address `a` holds once `bytes` are stored from `base` up in `s`: the stored byte, or what was there (R42). -/
def overwritten (s : State) (base : Nat) (bytes : List Byte) (a : Nat) : Byte :=
  if base ≤ a then bytes.getD (a - base) (s.byte a) else s.byte a

/-- The next step of `t`, if PC admits a fetch, fetches the two bytes that `contents` gives at PC and PC + 1, and runs
what they decode to. -/
def NextStepRunsFrom (t : State) (contents : Nat → Byte) : Prop :=
  t.pc.toNat + 1 ≤ 0xFFF → ∃ op : Word, t.fetch? = some op ∧
    op.toNat = (contents t.pc.toNat).toNat * 256 + (contents (t.pc.toNat + 1)).toNat ∧
    ∀ i, decode op = .ok i → step t = exec i t

/-- V0 to Vx. -/
def regsUpTo (x : Reg) : Set Part := {p | ∃ r : Reg, r ≤ x ∧ p = .reg r}

/-- The sixteen keys. -/
def keypad : Set Part := {p | ∃ k, p = .key k}

/-- The framebuffer and its dirty flag. -/
def screen : Set Part := {p | p = .dirty ∨ ∃ px py, p = .pixel px py}

/-- The parts an instruction may change (the writers named in R11 to R22 and in the rule of each instruction); every
instruction may change PC. -/
def mayWrite (i : Instr) (s : State) : Set Part :=
  match i with
  | .cls => {.pc} ∪ screen
  | .ret => {.pc, .sp}
  | .call _ => {.pc, .sp} ∪ {p | ∃ k : Fin 16, k.val = s.sp.val ∧ p = .stackEntry k}
  | .jp _ | .jpV0 _ | .seImm _ _ | .sneImm _ _ | .seReg _ _ | .sneReg _ _ | .skp _ | .sknp _ => {.pc}
  | .ldImm x _ | .addImm x _ | .ldReg x _ | .orReg x _ | .andReg x _ | .xorReg x _ | .ldVxDt x | .ldVxK x =>
    {.pc, .reg x}
  | .addReg x _ | .subReg x _ | .shr x _ | .subnReg x _ | .shl x _ => {.pc, .reg x, .reg .vf}
  | .rnd x _ => {.pc, .reg x, .draws}
  | .ldI _ | .addI _ | .ldF _ => {.pc, .index}
  | .drw _ _ _ => {.pc, .reg .vf} ∪ screen
  | .ldDtVx _ => {.pc, .dt}
  | .ldStVx _ => {.pc, .st}
  | .ldB _ => {.pc} ∪ bytesFrom s.ireg.toNat 3
  | .storeRegs x => {.pc} ∪ bytesFrom s.ireg.toNat (x.val + 1)
  | .loadRegs x => {.pc} ∪ regsUpTo x

/-! ### The spec's tables, for claims -/

/-- The execute-stage failure of an instruction (R160's table): the kind, or none where it commits. -/
def failureOf (i : Instr) (s : State) : Option Fault :=
  match i with
  | .ret => if s.sp.val = 0 then some .stackUnderflow else none
  | .call _ => if s.sp.val = 16 then some .stackOverflow else none
  | .drw _ _ n => if 1 ≤ n ∧ s.ireg.toNat + n - 1 > 0xFFF then some .outOfBounds else none
  | .ldB _ => if s.ireg.toNat + 2 > 0xFFF then some .outOfBounds else none
  | .storeRegs x | .loadRegs x => if s.ireg.toNat + x.val > 0xFFF then some .outOfBounds else none
  | .addI x => if s.ireg.toNat + (s.reg x).toNat > 0xFFFF then some .outOfBounds else none
  | .skp x | .sknp x => if (s.reg x).toNat > 15 then some .invalidKeyIndex else none
  | .cls | .jp _ | .seImm _ _ | .sneImm _ _ | .seReg _ _ | .ldImm _ _ | .addImm _ _ | .ldReg _ _ | .orReg _ _
  | .andReg _ _ | .xorReg _ _ | .addReg _ _ | .subReg _ _ | .shr _ _ | .subnReg _ _ | .shl _ _ | .sneReg _ _
  | .ldI _ | .jpV0 _ | .rnd _ _ | .ldVxDt _ | .ldVxK _ | .ldDtVx _ | .ldStVx _ | .ldF _ => none

/-- The failure of a step: R160's rows for `step` in R164's order, the fetch bound, the opcode, the instruction's own
check. -/
def stepFailure (s : State) : Option Fault :=
  if s.pc.toNat + 1 > 0xFFF then some .outOfBounds
  else
    match decode (BitVec.ofNat 16 ((s.byte s.pc.toNat).toNat * 256 + (s.byte (s.pc.toNat + 1)).toNat)) with
    | .error _ => some .invalidOpcode
    | .ok i => failureOf i s

/-- The failure of a transaction: the whole of R160's table. -/
def transactionFailure (t : Transaction) (s : State) : Option Fault :=
  match t with
  | .reset | .tickTimers | .ackDirty => none
  | .load rom => if rom.length > 3584 then some .romTooLarge else none
  | .setKey index _ => if index < 0 ∨ index > 15 then some .invalidKeyIndex else none
  | .step => stepFailure s

/-- The conditional-skip class's next PC (R85). -/
def skipPc (s : State) (c : Prop) [Decidable c] : Word := if c then s.pc + 4#16 else s.pc + 2#16

/-- The next PC of an instruction that commits, by R85's classes and the rules they name. The top stack entry is read
at `SP - 1`; Ex9E and ExA1 commit only when `V[x]` names a key. -/
def nextPc (i : Instr) (s : State) : Word :=
  match i with
  | .ret => s.stack.toList.getD (s.sp.val - 1) 0
  | .jp nnn | .call nnn => BitVec.ofNat 16 nnn.toNat
  | .jpV0 nnn => BitVec.ofNat 16 (nnn.toNat + (s.reg 0).toNat)
  | .seImm x nn => skipPc s (s.reg x = nn)
  | .sneImm x nn => skipPc s (s.reg x ≠ nn)
  | .seReg x y => skipPc s (s.reg x = s.reg y)
  | .sneReg x y => skipPc s (s.reg x ≠ s.reg y)
  | .skp x => skipPc s (∃ k : Fin 16, k.val = (s.reg x).toNat ∧ s.key[k] = true)
  | .sknp x => skipPc s (∃ k : Fin 16, k.val = (s.reg x).toNat ∧ s.key[k] = false)
  | .ldVxK _ => if ∃ k : Fin 16, s.key[k] = true then s.pc + 2#16 else s.pc
  | .cls | .ldImm _ _ | .addImm _ _ | .ldReg _ _ | .orReg _ _ | .andReg _ _ | .xorReg _ _ | .addReg _ _
  | .subReg _ _ | .shr _ _ | .subnReg _ _ | .shl _ _ | .ldI _ | .rnd _ _ | .drw _ _ _ | .ldVxDt _ | .ldDtVx _
  | .ldStVx _ | .addI _ | .ldF _ | .ldB _ | .storeRegs _ | .loadRegs _ => s.pc + 2#16

/-- The instructions that write VF as a flag (R11). -/
def writesFlag : Instr → Bool
  | .addReg _ _ | .subReg _ _ | .shr _ _ | .subnReg _ _ | .shl _ _ | .drw _ _ _ => true
  | .cls | .ret | .jp _ | .call _ | .seImm _ _ | .sneImm _ _ | .seReg _ _ | .ldImm _ _ | .addImm _ _
  | .ldReg _ _ | .orReg _ _ | .andReg _ _ | .xorReg _ _ | .sneReg _ _ | .ldI _ | .jpV0 _ | .rnd _ _ | .skp _
  | .sknp _ | .ldVxDt _ | .ldVxK _ | .ldDtVx _ | .ldStVx _ | .addI _ | .ldF _ | .ldB _ | .storeRegs _
  | .loadRegs _ => false

/-- The register operand an instruction takes as its destination `x`, if it has one (Fx65's is the last of several). -/
def destination? : Instr → Option Reg
  | .ldImm x _ | .addImm x _ | .ldReg x _ | .orReg x _ | .andReg x _ | .xorReg x _ | .addReg x _ | .subReg x _
  | .shr x _ | .subnReg x _ | .shl x _ | .rnd x _ | .ldVxDt x | .ldVxK x | .loadRegs x => some x
  | .cls | .ret | .jp _ | .call _ | .seImm _ _ | .sneImm _ _ | .seReg _ _ | .sneReg _ _ | .ldI _ | .jpV0 _
  | .drw _ _ _ | .skp _ | .sknp _ | .ldDtVx _ | .ldStVx _ | .addI _ | .ldF _ | .ldB _ | .storeRegs _ => none

/-- A set bit of the sprite at I falls on the cell (`px`, `py`) when an `n`-row sprite is drawn at (`V[x]`, `V[y]`)
(R141, R142): row `r`, column `c`, bit `7 - c` of the byte at `I + r`, both coordinates wrapped. -/
def SpriteOn (s : State) (x y : Reg) (n : Nat) (px : Fin 64) (py : Fin 32) : Prop :=
  ∃ r < n, ∃ c < 8, (s.byte (s.ireg.toNat + r)).getLsbD (7 - c) = true ∧
    px.val = ((s.reg x).toNat + c) % 64 ∧ py.val = ((s.reg y).toNat + r) % 32

/-- An outcome with its state, if it has one, changed by `f`. -/
def mapNext (f : State → State) : Host.Outcome State Fault Refusal → Host.Outcome State Fault Refusal
  | .next s => .next (f s)
  | .fault e => .fault e
  | .refused r => .refused r

/-- The instructions that read the keypad (R19). -/
def readsKeys : Instr → Bool
  | .skp _ | .sknp _ | .ldVxK _ => true
  | .cls | .ret | .jp _ | .call _ | .seImm _ _ | .sneImm _ _ | .seReg _ _ | .ldImm _ _ | .addImm _ _ | .ldReg _ _
  | .orReg _ _ | .andReg _ _ | .xorReg _ _ | .addReg _ _ | .subReg _ _ | .shr _ _ | .subnReg _ _ | .shl _ _
  | .sneReg _ _ | .ldI _ | .jpV0 _ | .rnd _ _ | .drw _ _ _ | .ldVxDt _ | .ldDtVx _ | .ldStVx _ | .addI _
  | .ldF _ | .ldB _ | .storeRegs _ | .loadRegs _ => false

/-- The operand bits of an instruction, in their fields (R61). -/
def operandBits : Instr → Nat
  | .cls | .ret => 0
  | .jp nnn | .call nnn | .ldI nnn | .jpV0 nnn => nnn.toNat
  | .seImm x nn | .sneImm x nn | .ldImm x nn | .addImm x nn | .rnd x nn => 0x100 * x.val + nn.toNat
  | .seReg x y | .ldReg x y | .orReg x y | .andReg x y | .xorReg x y | .addReg x y | .subReg x y | .shr x y
  | .subnReg x y | .shl x y | .sneReg x y => 0x100 * x.val + 0x10 * y.val
  | .drw x y n => 0x100 * x.val + 0x10 * y.val + n
  | .skp x | .sknp x | .ldVxDt x | .ldVxK x | .ldDtVx x | .ldStVx x | .addI x | .ldF x | .ldB x | .storeRegs x
  | .loadRegs x => 0x100 * x.val

end Sys2Proof.Machine
end

