-- ==== Sys2Proof/Certificates/Slice0/Obligations.lean ====
section
/-! DEFINITION. The statements for the provers. Each docstring names the rule of the spec it formalises. A statement
over `exec` holds in every state, reachable or not, unless it says otherwise; where it needs memory's canonical form
it says so, and `StepKeepsTheInvariant` says every step keeps that. Free values are never evaluated: a statement about
Cxnn holds for every random byte. -/

open Sys2Proof Sys2Proof.Machine

/-! ## Encoding -/

/-- Words of spec/95_test_vectors.md part D and of B7's field example, at least one of each family 0 to F, decode as
listed there. -/
def Obligations.SampleOpcodesDecodeAsListed : Prop :=
  decode 0x00E0#16 = .ok .cls ∧ decode 0x00EE#16 = .ok .ret ∧ decode 0x10E0#16 = .ok (.jp 0x0E0#12) ∧
  decode 0x2FFF#16 = .ok (.call 0xFFF#12) ∧ decode 0x3F00#16 = .ok (.seImm 15 0x00#8) ∧
  decode 0x4001#16 = .ok (.sneImm 0 0x01#8) ∧ decode 0x5AB0#16 = .ok (.seReg 10 11) ∧
  decode 0x6123#16 = .ok (.ldImm 1 0x23#8) ∧ decode 0x7FFF#16 = .ok (.addImm 15 0xFF#8) ∧
  decode 0xA123#16 = .ok (.ldI 0x123#12) ∧ decode 0xC1FF#16 = .ok (.rnd 1 0xFF#8) ∧ decode 0x8AB6#16 = .ok (.shr 10 11) ∧
  decode 0x8ABE#16 = .ok (.shl 10 11) ∧ decode 0x9AB0#16 = .ok (.sneReg 10 11) ∧
  decode 0xB123#16 = .ok (.jpV0 0x123#12) ∧ decode 0xD7A5#16 = .ok (.drw 7 10 5) ∧
  decode 0xEFA1#16 = .ok (.sknp 15) ∧ decode 0xFF65#16 = .ok (.loadRegs 15) ∧
  decode 0x0123#16 = .error (.noRowInFamily0 0x123#12) ∧ decode 0x5AB1#16 = .error (.noRowInFamily5 1) ∧
  decode 0x8AB8#16 = .error (.noRowInFamily8 8) ∧ decode 0xE0A0#16 = .error (.noRowInFamilyE 0xA0#8) ∧
  decode 0xF0FF#16 = .error (.noRowInFamilyF 0xFF#8)

/-- Every well-formed instruction, with every operand at every value its field admits, decodes from its own opcode
and from its two bytes in memory order (R60, R61, R66). -/
def Obligations.EncodedInstructionsDecodeBack : Prop :=
  ∀ i : Instr, i.wellFormed = true →
    decode (encode i) = .ok i ∧ decodeBytes (opcodeBytes (encode i)) = .ok (i, [])

/-- Each opcode has one meaning: a decoded instruction is well-formed and encodes to the opcode it was read from
(R61, R65: no other operand bit is dropped, the ignored `y` of 8xy6 and 8xyE included). -/
def Obligations.DecodedOpcodesEncodeBack : Prop :=
  ∀ (op : Word) (i : Instr), decode op = .ok i → i.wellFormed = true ∧ encode i = op

/-- R64: an opcode selects row `r` of R66 exactly when `op AND mask_r = match_r`; the decoder gives that row's
instruction with the operand fields of R61; the rows are mutually exclusive; an opcode that selects none is not
decoded. -/
def Obligations.DecodeSelectsTheMatchingRow : Prop :=
  ∀ op : Word,
    (∀ i, decode op = .ok i →
      i.row ∈ opcodeMap ∧ selects op i.row = true ∧ i.wellFormed = true ∧ op.toNat = i.row.1.toNat + operandBits i) ∧
    (∀ row ∈ opcodeMap, selects op row = true → ∃ i, decode op = .ok i ∧ i.row = row) ∧
    (∀ row ∈ opcodeMap, ∀ row' ∈ opcodeMap, selects op row = true → selects op row' = true → row = row') ∧
    ((∀ row ∈ opcodeMap, selects op row = false) → ∃ e, decode op = .error e)

/-- R65's exhaustive list of the unrecognized opcodes by family, and what a step does with one: `InvalidOpcode`. That
an unrecognized opcode fails, where the source would also allow a no-op, is the spec's decision D1. -/
def Obligations.UnrecognizedOpcodesFailTheStep : Prop :=
  (∀ op : Word, (∃ e, decode op = .error e) ↔
    (op.toNat / 4096 = 0x0 ∧ op.toNat ≠ 0x00E0 ∧ op.toNat ≠ 0x00EE) ∨
    (op.toNat / 4096 = 0x5 ∧ op.toNat % 16 ≠ 0) ∨
    (op.toNat / 4096 = 0x8 ∧ op.toNat % 16 ∈ [0x8, 0x9, 0xA, 0xB, 0xC, 0xD, 0xF]) ∨
    (op.toNat / 4096 = 0x9 ∧ op.toNat % 16 ≠ 0) ∨
    (op.toNat / 4096 = 0xE ∧ op.toNat % 256 ∉ [0x9E, 0xA1]) ∨
    (op.toNat / 4096 = 0xF ∧ op.toNat % 256 ∉ [0x07, 0x0A, 0x15, 0x18, 0x1E, 0x29, 0x33, 0x55, 0x65])) ∧
  (∀ (s : State) (op : Word) (e : DecodeError), s.fetch? = some op → decode op = .error e →
    step s = .fault .invalidOpcode)

/-! ## The step -/

/-- R83 and what a step runs: with `PC + 1 > 0xFFF` the fetch fails with `OutOfBounds`, whatever else the state holds;
otherwise the opcode is `Mem[PC] * 256 + Mem[PC+1]`, and when it decodes to `i` the step is `exec i` at this very
state, PC still at the instruction. -/
def Obligations.StepRunsTheInstructionAtPc : Prop :=
  ∀ s : State,
    (s.pc.toNat + 1 > 0xFFF → step s = .fault .outOfBounds) ∧
    (s.pc.toNat + 1 ≤ 0xFFF → ∀ (op : Word) (i : Instr),
      op.toNat = (s.byte s.pc.toNat).toNat * 256 + (s.byte (s.pc.toNat + 1)).toNat →
      decode op = .ok i → step s = exec i s)

/-- An opcode placed at PC is the one the next step runs, and placing it changes the two bytes at PC alone (R44, R83).
`withFetchWord` is the model's stand-in for a loaded program (log entry 2). -/
def Obligations.PlacedOpcodeRunsNext : Prop :=
  ∀ (s : State) (nbits w : Nat) (i : Instr), s.mem.wf → s.pc.toNat + 1 ≤ 0xFFF →
    decodeTableWord nbits w = some i →
    step (s.withFetchWord nbits w) = exec i (s.withFetchWord nbits w) ∧
    OnlyChanges s (s.withFetchWord nbits w) (bytesFrom s.pc.toNat 2)

/-! ## Control transfer -/

/-- R91: 1nnn jumps to `nnn`, any of the 4096 addresses, and changes PC alone. -/
def Obligations.JumpGoesToItsAddress : Prop :=
  ∀ nnn : Addr12, decode (packA 0x1#4 nnn) = .ok (.jp nnn) ∧
    ∀ s : State, ∃ t, exec (.jp nnn) s = .next t ∧ t.pc.toNat = nnn.toNat ∧ OnlyChanges s t {.pc}

/-- R93: Bnnn jumps to `nnn + V[0]`, a sum over the integers, and changes PC alone. -/
def Obligations.OffsetJumpAddsV0 : Prop :=
  ∀ nnn : Addr12, decode (packA 0xB#4 nnn) = .ok (.jpV0 nnn) ∧
    ∀ s : State, ∃ t, exec (.jpV0 nnn) s = .next t ∧ t.pc.toNat = nnn.toNat + (s.reg 0).toNat ∧
      OnlyChanges s t {.pc}

/-- R92: 2nnn pushes `PC + 2` at `Stack[SP]`, counts SP up and jumps; with sixteen calls outstanding it fails with
`StackOverflow`. -/
def Obligations.CallPushesTheReturnAddress : Prop :=
  ∀ nnn : Addr12, decode (packA 0x2#4 nnn) = .ok (.call nnn) ∧
    ∀ s : State,
      (s.sp.val < 16 → ∃ t, exec (.call nnn) s = .next t ∧
        t.pc.toNat = nnn.toNat ∧ t.sp.val = s.sp.val + 1 ∧
        (∀ k : Fin 16, k.val = s.sp.val → t.stack[k] = s.pc + 2#16) ∧
        OnlyChanges s t ({.pc, .sp} ∪ {p | ∃ k : Fin 16, k.val = s.sp.val ∧ p = .stackEntry k})) ∧
      (s.sp.val = 16 → exec (.call nnn) s = .fault .stackOverflow)

/-- R90: 00EE takes PC from the top stack entry and counts SP down; the entry stays where it is; on an empty stack it
fails with `StackUnderflow`. -/
def Obligations.ReturnPopsTheTopEntry : Prop :=
  decode 0x00EE#16 = .ok .ret ∧
    ∀ s : State,
      (s.sp.val ≠ 0 → ∃ t, exec .ret s = .next t ∧
        (∀ k : Fin 16, k.val + 1 = s.sp.val → t.pc = s.stack[k]) ∧ t.sp.val + 1 = s.sp.val ∧
        OnlyChanges s t {.pc, .sp}) ∧
      (s.sp.val = 0 → exec .ret s = .fault .stackUnderflow)

/-- The stack round trip (R92's corner cases; spec/95_test_vectors.md S5): a return that finds the stack as a call left
it, whatever was done to the rest of the state in between, comes back to the instruction after the call with SP as it
was. -/
def Obligations.ReturnComesBackAfterTheCall : Prop :=
  ∀ (s t t' : State) (nnn : Addr12), exec (.call nnn) s = .next t → t'.stack = t.stack → t'.sp = t.sp →
    ∃ u, exec .ret t' = .next u ∧ u.pc = s.pc + 2#16 ∧ u.sp = s.sp ∧
      (∀ k : Fin 16, k.val < s.sp.val → u.stack[k] = s.stack[k]) ∧ OnlyChanges t' u {.pc, .sp}

/-- A jump to its own address, by which a program ends (R91's corner cases; spec/70_reset_and_hazards.md, end of a run):
every step commits and leaves the state as it is. -/
def Obligations.SelfJumpRepeatsForever : Prop :=
  ∀ s : State, s.selfJump = true → SafeStep s ∧ ∀ (k : Nat) (t : State), StepsTo k s t ↔ t = s

/-! ## Conditional skips -/

/-- R100 and R101: 3xnn skips when `V[x] = nn`, 4xnn when `V[x] != nn`; each changes PC alone. -/
def Obligations.SkipsCompareWithTheImmediate : Prop :=
  ∀ (x : Reg) (nn : Byte),
    decode (packI 0x3#4 x nn) = .ok (.seImm x nn) ∧ decode (packI 0x4#4 x nn) = .ok (.sneImm x nn) ∧
    ∀ s : State,
      (∃ t, exec (.seImm x nn) s = .next t ∧
        t.pc = (if s.reg x = nn then s.pc + 4#16 else s.pc + 2#16) ∧ OnlyChanges s t {.pc}) ∧
      (∃ t, exec (.sneImm x nn) s = .next t ∧
        t.pc = (if s.reg x = nn then s.pc + 2#16 else s.pc + 4#16) ∧ OnlyChanges s t {.pc})

/-- R102 and R103: 5xy0 skips when `V[x] = V[y]`, 9xy0 when `V[x] != V[y]`; each changes PC alone. -/
def Obligations.SkipsCompareTwoRegisters : Prop :=
  ∀ x y : Reg,
    decode (packR 0x5#4 x y 0#4) = .ok (.seReg x y) ∧ decode (packR 0x9#4 x y 0#4) = .ok (.sneReg x y) ∧
    ∀ s : State,
      (∃ t, exec (.seReg x y) s = .next t ∧
        t.pc = (if s.reg x = s.reg y then s.pc + 4#16 else s.pc + 2#16) ∧ OnlyChanges s t {.pc}) ∧
      (∃ t, exec (.sneReg x y) s = .next t ∧
        t.pc = (if s.reg x = s.reg y then s.pc + 2#16 else s.pc + 4#16) ∧ OnlyChanges s t {.pc})

/-! ## Register loads and ALU -/

/-- R110 and R112: 6xnn loads the immediate, 8xy0 copies `V[y]`; each changes `V[x]` and PC alone. -/
def Obligations.LoadsSetOneRegister : Prop :=
  ∀ (x y : Reg) (nn : Byte),
    decode (packI 0x6#4 x nn) = .ok (.ldImm x nn) ∧ decode (packR 0x8#4 x y 0x0#4) = .ok (.ldReg x y) ∧
    ∀ s : State,
      (∃ t, exec (.ldImm x nn) s = .next t ∧ t.reg x = nn ∧ t.pc = s.pc + 2#16 ∧
        OnlyChanges s t {.pc, .reg x}) ∧
      (∃ t, exec (.ldReg x y) s = .next t ∧ t.reg x = s.reg y ∧ t.pc = s.pc + 2#16 ∧
        OnlyChanges s t {.pc, .reg x})

/-- R113, R114 and R115: 8xy1, 8xy2 and 8xy3 combine the registers bit by bit and write no flag. -/
def Obligations.LogicCombinesBitByBit : Prop :=
  ∀ x y : Reg,
    decode (packR 0x8#4 x y 0x1#4) = .ok (.orReg x y) ∧ decode (packR 0x8#4 x y 0x2#4) = .ok (.andReg x y) ∧
    decode (packR 0x8#4 x y 0x3#4) = .ok (.xorReg x y) ∧
    ∀ s : State,
      (∃ t, exec (.orReg x y) s = .next t ∧
        (∀ k, (t.reg x).getLsbD k = ((s.reg x).getLsbD k || (s.reg y).getLsbD k)) ∧
        t.pc = s.pc + 2#16 ∧ OnlyChanges s t {.pc, .reg x}) ∧
      (∃ t, exec (.andReg x y) s = .next t ∧
        (∀ k, (t.reg x).getLsbD k = ((s.reg x).getLsbD k && (s.reg y).getLsbD k)) ∧
        t.pc = s.pc + 2#16 ∧ OnlyChanges s t {.pc, .reg x}) ∧
      (∃ t, exec (.xorReg x y) s = .next t ∧
        (∀ k, (t.reg x).getLsbD k = ((s.reg x).getLsbD k != (s.reg y).getLsbD k)) ∧
        t.pc = s.pc + 2#16 ∧ OnlyChanges s t {.pc, .reg x})

/-- 7xnn (spec/43_register_alu.md): the sum mod 256, and VF is not written as a flag, whether or not the sum exceeds
255. That VF is left alone is the spec's decision D2. -/
def Obligations.AddImmediateWrapsWithoutFlag : Prop :=
  ∀ (x : Reg) (nn : Byte), decode (packI 0x7#4 x nn) = .ok (.addImm x nn) ∧
    ∀ s : State, ∃ t, exec (.addImm x nn) s = .next t ∧
      (t.reg x).toNat = ((s.reg x).toNat + nn.toNat) % 256 ∧ t.pc = s.pc + 2#16 ∧
      OnlyChanges s t {.pc, .reg x}

/-- R116: 8xy4 leaves the sum mod 256 in `V[x]` and the carry in VF; with `x = F` the carry is what stays. -/
def Obligations.AddRegistersSetsTheCarry : Prop :=
  ∀ x y : Reg, decode (packR 0x8#4 x y 0x4#4) = .ok (.addReg x y) ∧
    ∀ s : State, ∃ t, exec (.addReg x y) s = .next t ∧
      (x ≠ 15 → (t.reg x).toNat = ((s.reg x).toNat + (s.reg y).toNat) % 256) ∧
      t.reg 15 = (if (s.reg x).toNat + (s.reg y).toNat > 255 then 1#8 else 0#8) ∧
      t.pc = s.pc + 2#16 ∧ OnlyChanges s t {.pc, .reg x, .reg 15}

/-- R117 and R119: 8xy5 and 8xy7 leave the difference mod 256 in `V[x]` and NOT borrow in VF, both from the values
before the instruction; with `x = F` the flag is what stays. -/
def Obligations.SubtractSetsNotBorrow : Prop :=
  ∀ x y : Reg,
    decode (packR 0x8#4 x y 0x5#4) = .ok (.subReg x y) ∧ decode (packR 0x8#4 x y 0x7#4) = .ok (.subnReg x y) ∧
    ∀ s : State,
      (∃ t, exec (.subReg x y) s = .next t ∧
        (x ≠ 15 → (t.reg x).toNat = (256 + (s.reg x).toNat - (s.reg y).toNat) % 256) ∧
        t.reg 15 = (if (s.reg y).toNat > (s.reg x).toNat then 0#8 else 1#8) ∧
        t.pc = s.pc + 2#16 ∧ OnlyChanges s t {.pc, .reg x, .reg 15}) ∧
      (∃ t, exec (.subnReg x y) s = .next t ∧
        (x ≠ 15 → (t.reg x).toNat = (256 + (s.reg y).toNat - (s.reg x).toNat) % 256) ∧
        t.reg 15 = (if (s.reg x).toNat > (s.reg y).toNat then 0#8 else 1#8) ∧
        t.pc = s.pc + 2#16 ∧ OnlyChanges s t {.pc, .reg x, .reg 15})

/-- 8xy6 and 8xyE (spec/43_register_alu.md): shift `V[x]` by one, whatever `y` is, and put the bit shifted out in VF.
With `x = F` the shifted value is what stays: that clause is the spec's decision D3. -/
def Obligations.ShiftsDropOneBitIntoVf : Prop :=
  ∀ x y : Reg,
    decode (packR 0x8#4 x y 0x6#4) = .ok (.shr x y) ∧ decode (packR 0x8#4 x y 0xE#4) = .ok (.shl x y) ∧
    ∀ s : State,
      (∃ t, exec (.shr x y) s = .next t ∧ (t.reg x).toNat = (s.reg x).toNat / 2 ∧
        (x ≠ 15 → (t.reg 15).toNat = (s.reg x).toNat % 2) ∧
        t.pc = s.pc + 2#16 ∧ OnlyChanges s t {.pc, .reg x, .reg 15}) ∧
      (∃ t, exec (.shl x y) s = .next t ∧ (t.reg x).toNat = 2 * (s.reg x).toNat % 256 ∧
        (x ≠ 15 → (t.reg 15).toNat = (s.reg x).toNat / 128) ∧
        t.pc = s.pc + 2#16 ∧ OnlyChanges s t {.pc, .reg x, .reg 15})

/-- Cxnn (spec/43_register_alu.md): `nn AND` the random byte this state's next draw is, a free value of which nothing is
assumed (D14, log entry 1); no bit that `nn` has clear is set; the draw is used up. -/
def Obligations.RandomByteIsMasked : Prop :=
  ∀ (x : Reg) (nn : Byte), decode (packI 0xC#4 x nn) = .ok (.rnd x nn) ∧
    ∀ s : State, ∃ t, exec (.rnd x nn) s = .next t ∧
      (∀ k, (t.reg x).getLsbD k = (nn.getLsbD k && (Config.randomByte s.draws).getLsbD k)) ∧
      t.draws = s.draws + 1 ∧ t.pc = s.pc + 2#16 ∧ OnlyChanges s t {.pc, .reg x, .draws}

/-! ## Index register, loads and stores -/

/-- R130: Annn loads I with `nnn`. -/
def Obligations.LoadIndexSetsI : Prop :=
  ∀ nnn : Addr12, decode (packA 0xA#4 nnn) = .ok (.ldI nnn) ∧
    ∀ s : State, ∃ t, exec (.ldI nnn) s = .next t ∧ t.ireg.toNat = nnn.toNat ∧ t.pc = s.pc + 2#16 ∧
      OnlyChanges s t {.pc, .index}

/-- Fx1E (spec/44_index_memory.md): I takes the 16-bit sum, above 0xFFF as below it, and no flag is written; a sum above
0xFFFF fails with `OutOfBounds`. The overflow policy is the spec's decision D4. -/
def Obligations.AddToIndexKeepsSixteenBits : Prop :=
  ∀ x : Reg, decode (packI 0xF#4 x 0x1E#8) = .ok (.addI x) ∧
    ∀ s : State,
      (s.ireg.toNat + (s.reg x).toNat ≤ 0xFFFF → ∃ t, exec (.addI x) s = .next t ∧
        t.ireg.toNat = s.ireg.toNat + (s.reg x).toNat ∧ t.pc = s.pc + 2#16 ∧ OnlyChanges s t {.pc, .index}) ∧
      (s.ireg.toNat + (s.reg x).toNat > 0xFFFF → exec (.addI x) s = .fault .outOfBounds)

/-- Fx29 (spec/44_index_memory.md): I takes five times the whole 8-bit value of `V[x]`; that it is not masked to a
nibble is the spec's decision D21. -/
def Obligations.GlyphIndexIsFiveTimesVx : Prop :=
  ∀ x : Reg, decode (packI 0xF#4 x 0x29#8) = .ok (.ldF x) ∧
    ∀ s : State, ∃ t, exec (.ldF x) s = .next t ∧ t.ireg.toNat = 5 * (s.reg x).toNat ∧
      t.pc = s.pc + 2#16 ∧ OnlyChanges s t {.pc, .index}

/-- R133: Fx33 stores hundreds, tens and ones of `V[x]` at I, I+1, I+2 and changes those three bytes and PC alone; when
`I + 2 > 0xFFF` it fails with `OutOfBounds`. -/
def Obligations.DecimalDigitsAreStoredAtI : Prop :=
  ∀ x : Reg, decode (packI 0xF#4 x 0x33#8) = .ok (.ldB x) ∧
    ∀ s : State, s.mem.wf →
      (s.ireg.toNat + 2 ≤ 0xFFF → ∃ t, exec (.ldB x) s = .next t ∧
        (t.byte s.ireg.toNat).toNat = (s.reg x).toNat / 100 ∧
        (t.byte (s.ireg.toNat + 1)).toNat = (s.reg x).toNat / 10 % 10 ∧
        (t.byte (s.ireg.toNat + 2)).toNat = (s.reg x).toNat % 10 ∧
        t.pc = s.pc + 2#16 ∧ OnlyChanges s t ({.pc} ∪ bytesFrom s.ireg.toNat 3)) ∧
      (s.ireg.toNat + 2 > 0xFFF → exec (.ldB x) s = .fault .outOfBounds)

/-- R134: Fx55 stores `V[0]` to `V[x]` at I up and changes those `x + 1` bytes and PC alone, I not; when `I + x > 0xFFF`
it fails with `OutOfBounds`. -/
def Obligations.RegistersAreStoredFromI : Prop :=
  ∀ x : Reg, decode (packI 0xF#4 x 0x55#8) = .ok (.storeRegs x) ∧
    ∀ s : State, s.mem.wf →
      (s.ireg.toNat + x.val ≤ 0xFFF → ∃ t, exec (.storeRegs x) s = .next t ∧
        (∀ k : Reg, k ≤ x → t.byte (s.ireg.toNat + k.val) = s.reg k) ∧
        t.pc = s.pc + 2#16 ∧ OnlyChanges s t ({.pc} ∪ bytesFrom s.ireg.toNat (x.val + 1))) ∧
      (s.ireg.toNat + x.val > 0xFFF → exec (.storeRegs x) s = .fault .outOfBounds)

/-- R135: Fx65 loads `V[0]` to `V[x]` from I up and changes those registers and PC alone, I not; when `I + x > 0xFFF` it
fails with `OutOfBounds` and loads none. -/
def Obligations.RegistersAreLoadedFromI : Prop :=
  ∀ x : Reg, decode (packI 0xF#4 x 0x65#8) = .ok (.loadRegs x) ∧
    ∀ s : State,
      (s.ireg.toNat + x.val ≤ 0xFFF → ∃ t, exec (.loadRegs x) s = .next t ∧
        (∀ k : Reg, k ≤ x → t.reg k = s.byte (s.ireg.toNat + k.val)) ∧
        t.pc = s.pc + 2#16 ∧ OnlyChanges s t ({.pc} ∪ regsUpTo x)) ∧
      (s.ireg.toNat + x.val > 0xFFF → exec (.loadRegs x) s = .fault .outOfBounds)

/-- A Fx65 that finds I and memory as a Fx55 left them gives back the registers stored, whatever the registers held in
between (spec/44_index_memory.md; spec/20_memory.md ordering: a read returns the most recent write). -/
def Obligations.StoredRegistersLoadBack : Prop :=
  ∀ (s t t' : State) (x : Reg), s.mem.wf → exec (.storeRegs x) s = .next t → t'.mem = t.mem → t'.ireg = t.ireg →
    ∃ u, exec (.loadRegs x) t' = .next u ∧ (∀ k : Reg, k ≤ x → u.reg k = s.reg k) ∧
      (∀ k : Reg, x < k → u.reg k = t'.reg k)

/-- Fetch coherence (spec/20_memory.md, ordering): the bytes stored by Fx33, by Fx55 or by `load` are what the very next
fetch that covers any of them reads, with nothing in between, and what they decode to is what runs; a byte not stored
to is fetched as it was. So for every I, every `x`, every ROM and every PC. That a `load` is accepted between any two
steps is the spec's decision D24. -/
def Obligations.StoredOpcodeIsFetchedNext : Prop :=
  ∀ s : State, s.mem.wf →
    (∀ (x : Reg) (t : State), exec (.ldB x) s = .next t →
      t.pc = s.pc + 2#16 ∧
      NextStepRunsFrom t (overwritten s s.ireg.toNat
        [BitVec.ofNat 8 ((s.reg x).toNat / 100), BitVec.ofNat 8 ((s.reg x).toNat / 10 % 10),
          BitVec.ofNat 8 ((s.reg x).toNat % 10)])) ∧
    (∀ (x : Reg) (t : State), exec (.storeRegs x) s = .next t →
      t.pc = s.pc + 2#16 ∧
      NextStepRunsFrom t (overwritten s s.ireg.toNat (s.v.toList.take (x.val + 1)))) ∧
    (∀ rom : List Byte, rom.length ≤ 3584 →
      (perform (.load rom) s).state.pc = s.pc ∧
      NextStepRunsFrom (perform (.load rom) s).state (overwritten s 0x200 rom))

/-! ## Display -/

/-- 00E0 (spec/45_display.md): every cell is unlit and DIRTY is set, also when no cell was lit (the spec's decision
D19). -/
def Obligations.ClearScreenUnlightsEveryCell : Prop :=
  decode 0x00E0#16 = .ok .cls ∧
    ∀ s : State, ∃ t, exec .cls s = .next t ∧ (∀ px py, t.pixel px py = false) ∧ t.dirty = true ∧
      t.pc = s.pc + 2#16 ∧ OnlyChanges s t ({.pc} ∪ screen)

/-- Dxyn (spec/45_display.md): the loop over rows and columns comes to this. A cell is toggled exactly when a set sprite
bit falls on it; VF is 1 when one fell on a lit cell, else 0; DIRTY is set; nothing else changes but PC. When the
sprite's bytes go beyond 0xFFF it fails with `OutOfBounds`; with `n = 0` it never fails. The bit order in `SpriteOn`
is the spec's decision D9, DIRTY's D19, the empty sprite's D18. -/
def Obligations.DrawTogglesTheSpriteCells : Prop :=
  ∀ (x y : Reg) (n : Nat), n ≤ 15 → decode (packR 0xD#4 x y (BitVec.ofNat 4 n)) = .ok (.drw x y n) ∧
    ∀ s : State,
      ((n = 0 ∨ s.ireg.toNat + n - 1 ≤ 0xFFF) → ∃ t, exec (.drw x y n) s = .next t ∧
        (∀ px py, SpriteOn s x y n px py → t.pixel px py = !s.pixel px py) ∧
        (∀ px py, ¬ SpriteOn s x y n px py → t.pixel px py = s.pixel px py) ∧
        ((∃ px py, SpriteOn s x y n px py ∧ s.pixel px py = true) → t.reg 15 = 1#8) ∧
        ((¬ ∃ px py, SpriteOn s x y n px py ∧ s.pixel px py = true) → t.reg 15 = 0#8) ∧
        t.dirty = true ∧ t.pc = s.pc + 2#16 ∧ OnlyChanges s t ({.pc, .reg 15} ∪ screen)) ∧
      (1 ≤ n ∧ s.ireg.toNat + n - 1 > 0xFFF → exec (.drw x y n) s = .fault .outOfBounds)

/-- The double draw (spec/45_display.md, properties of Dxyn): with neither coordinate in VF, drawing the same sprite
again at the same place restores the framebuffer exactly, and the second draw reports a collision exactly when some
set sprite bit fell on a cell that was UNLIT before the first (conflict C11). -/
def Obligations.DrawingTwiceRestoresTheScreen : Prop :=
  ∀ (s t : State) (x y : Reg) (n : Nat), x ≠ 15 → y ≠ 15 → n ≤ 15 → exec (.drw x y n) s = .next t →
    ∃ u, exec (.drw x y n) t = .next u ∧ (∀ px py, u.pixel px py = s.pixel px py) ∧
      (u.reg 15 = 1#8 ↔ ∃ px py, SpriteOn s x y n px py ∧ s.pixel px py = false)

/-! ## Keypad and timers -/

/-- Ex9E and ExA1 (spec/46_keypad_timers.md): the key named by the VALUE `V[x]` decides the skip; PC alone changes. A
value above 15 fails with `InvalidKeyIndex`: the spec's decision D7. -/
def Obligations.KeySkipsTestTheKeyVxNames : Prop :=
  ∀ x : Reg,
    decode (packI 0xE#4 x 0x9E#8) = .ok (.skp x) ∧ decode (packI 0xE#4 x 0xA1#8) = .ok (.sknp x) ∧
    ∀ s : State,
      (∀ k : Fin 16, (s.reg x).toNat = k.val →
        (∃ t, exec (.skp x) s = .next t ∧
          t.pc = (if s.key[k] = true then s.pc + 4#16 else s.pc + 2#16) ∧ OnlyChanges s t {.pc}) ∧
        (∃ t, exec (.sknp x) s = .next t ∧
          t.pc = (if s.key[k] = true then s.pc + 2#16 else s.pc + 4#16) ∧ OnlyChanges s t {.pc})) ∧
      ((s.reg x).toNat > 15 →
        exec (.skp x) s = .fault .invalidKeyIndex ∧ exec (.sknp x) s = .fault .invalidKeyIndex)

/-- R152 and R154: Fx07 reads DT and leaves it as it is; Fx15 sets DT. -/
def Obligations.DelayTimerIsReadAndSet : Prop :=
  ∀ x : Reg,
    decode (packI 0xF#4 x 0x07#8) = .ok (.ldVxDt x) ∧ decode (packI 0xF#4 x 0x15#8) = .ok (.ldDtVx x) ∧
    ∀ s : State,
      (∃ t, exec (.ldVxDt x) s = .next t ∧ t.reg x = s.dt ∧ t.pc = s.pc + 2#16 ∧
        OnlyChanges s t {.pc, .reg x}) ∧
      (∃ t, exec (.ldDtVx x) s = .next t ∧ t.dt = s.reg x ∧ t.pc = s.pc + 2#16 ∧
        OnlyChanges s t {.pc, .dt})

/-- Fx18 (spec/46_keypad_timers.md): ST takes `V[x]`; start_beep fires when ST goes from 0 to non-zero, stop_beep when it
goes from non-zero to 0, else neither. The events are the spec's decision D13. -/
def Obligations.SoundTimerIsSetAndBeepEdgesFire : Prop :=
  ∀ x : Reg, decode (packI 0xF#4 x 0x18#8) = .ok (.ldStVx x) ∧
    ∀ s : State, ∃ t, exec (.ldStVx x) s = .next t ∧ t.st = s.reg x ∧ t.pc = s.pc + 2#16 ∧
      OnlyChanges s t {.pc, .st} ∧
      (s.st = 0#8 → s.reg x ≠ 0#8 → beepEdge s t = some .startBeep) ∧
      (s.st ≠ 0#8 → s.reg x = 0#8 → beepEdge s t = some .stopBeep) ∧
      ((s.st = 0#8 ↔ s.reg x = 0#8) → beepEdge s t = none)

/-- Fx0A (spec/46_keypad_timers.md): with no key pressed it commits and changes nothing at all; otherwise `V[x]` takes
the lowest pressed index and PC moves on. That the lowest is taken, at once when a key is already held, is the spec's
decision D8. -/
def Obligations.WaitForKeyTakesTheLowestPressed : Prop :=
  ∀ x : Reg, decode (packI 0xF#4 x 0x0A#8) = .ok (.ldVxK x) ∧
    ∀ s : State,
      ((∀ k : Fin 16, s.key[k] = false) → exec (.ldVxK x) s = .next s) ∧
      (∀ k : Fin 16, s.key[k] = true → (∀ j : Fin 16, j < k → s.key[j] = false) →
        ∃ t, exec (.ldVxK x) s = .next t ∧ (t.reg x).toNat = k.val ∧ t.pc = s.pc + 2#16 ∧
          OnlyChanges s t {.pc, .reg x})

/-- The wait holds nothing of its own (spec/40_step_cycle.md, outcome of a step; spec/10_state.md, what is not state):
while WAITING, any number of steps commit and the state stays as it is. -/
def Obligations.WaitingStepsChangeNothing : Prop :=
  ∀ (s : State), s.waiting = true → ∀ (k : Nat) (t : State), StepsTo k s t ↔ t = s

/-! ## The other transactions -/

/-- R170: a tick counts DT and ST down by one, each stopping at 0, fires stop_beep exactly when ST reaches 0 from 1,
touches nothing else and cannot fail. -/
def Obligations.TickCountsBothTimersDown : Prop :=
  ∀ s : State,
    (perform .tickTimers s).status = .ok ∧
    (perform .tickTimers s).state.dt.toNat = s.dt.toNat - 1 ∧
    (perform .tickTimers s).state.st.toNat = s.st.toNat - 1 ∧
    (s.st = 1#8 → (perform .tickTimers s).event = some .stopBeep) ∧
    (s.st ≠ 1#8 → (perform .tickTimers s).event = none) ∧
    OnlyChanges s (perform .tickTimers s).state {.dt, .st}

/-- "A timer written with `v` reaches 0 after exactly `v` ticks if not rewritten", never goes below, and stop_beep fires
once, at the tick that takes ST to 0 (spec/60_exceptions.md, timer facts). -/
def Obligations.TimersRunOutAfterTheirValue : Prop :=
  ∀ (s : State) (k : Nat),
    (runSchedule (List.replicate k .tickTimers) s).dt.toNat = s.dt.toNat - k ∧
    (runSchedule (List.replicate k .tickTimers) s).st.toNat = s.st.toNat - k ∧
    eventsOf (List.replicate k .tickTimers) s =
      (if 1 ≤ s.st.toNat ∧ s.st.toNat ≤ k then [.stopBeep] else [])

/-- R172: `set_key` writes the one key its index names; an index outside 0 to 15, a negative one included, fails with
`InvalidKeyIndex` and changes nothing. -/
def Obligations.SetKeyWritesOneKey : Prop :=
  ∀ (s : State) (index : Int) (pressed : Bool),
    (∀ k : Fin 16, index = (k.val : Int) →
      (perform (.setKey index pressed) s).status = .ok ∧
      (perform (.setKey index pressed) s).state.key[k] = pressed ∧
      OnlyChanges s (perform (.setKey index pressed) s).state {.key k}) ∧
    (index < 0 ∨ index > 15 →
      (perform (.setKey index pressed) s).status = .failed .invalidKeyIndex ∧
      (perform (.setKey index pressed) s).state = s)

/-- `load` (spec/70_reset_and_hazards.md): exactly the ROM's bytes, verbatim from 0x200, and nothing else; more than 3584
bytes fail with `RomTooLarge` and write none. That it is accepted at any time is the spec's decision D24. -/
def Obligations.LoadCopiesTheRomTo0x200 : Prop :=
  ∀ (s : State) (rom : List Byte), s.mem.wf →
    (rom.length ≤ 3584 →
      (perform (.load rom) s).status = .ok ∧
      (∀ (k : Nat) (h : k < rom.length), (perform (.load rom) s).state.byte (0x200 + k) = rom[k]) ∧
      OnlyChanges s (perform (.load rom) s).state (bytesFrom 0x200 rom.length)) ∧
    (rom.length > 3584 →
      (perform (.load rom) s).status = .failed .romTooLarge ∧ (perform (.load rom) s).state = s)

/-- `reset` at any time (spec/10_state.md, reset values in one table; spec/70_reset_and_hazards.md): registers and I zero,
PC 0x200 and the font loaded, as the source says; the other zeros are the spec's decisions D11 and D28, the font's
bytes D10 (log entries 3 and 4). -/
def Obligations.ResetLeavesTheBaseline : Prop :=
  ∀ s : State,
    (perform .reset s).status = .ok ∧
    (∀ r : Reg, (perform .reset s).state.reg r = 0#8) ∧
    (perform .reset s).state.ireg = 0#16 ∧ (perform .reset s).state.pc = 0x200#16 ∧
    (perform .reset s).state.sp = 0 ∧ (∀ k : Fin 16, (perform .reset s).state.stack[k] = 0#16) ∧
    (perform .reset s).state.dt = 0#8 ∧ (perform .reset s).state.st = 0#8 ∧
    (∀ k : Fin 16, (perform .reset s).state.key[k] = false) ∧
    (∀ px py, (perform .reset s).state.pixel px py = false) ∧ (perform .reset s).state.dirty = false ∧
    (∀ a, a < 80 → (perform .reset s).state.byte a = font.getD a 0) ∧
    (∀ a, 80 ≤ a → a < 4096 → (perform .reset s).state.byte a = 0#8) ∧
    (perform .reset s).state.draws = s.draws

/-- `ack_dirty` clears DIRTY and changes nothing else (spec/10_state.md, framebuffer and dirty flag). That the renderer
alone clears it is the spec's decision D12. -/
def Obligations.AckDirtyClearsTheFlagAlone : Prop :=
  ∀ s : State,
    (perform .ackDirty s).status = .ok ∧ (perform .ackDirty s).state.dirty = false ∧
    (perform .ackDirty s).event = none ∧ OnlyChanges s (perform .ackDirty s).state {.dirty}

/-- A transaction commits or fails whole (spec/60_exceptions.md, the failure table and what a failure leaves): in every
state, every transaction is Ok when the table gives it no failure there; when the table gives it a kind it fails with
that kind, no beep event fires, and the state after it is the state before it. The table's rows for Fx1E, the key
skips and unrecognized opcodes are the spec's decisions D4, D7 and D1, and loads at any time D24; that a fault of
`exec` or `step` carries no state is log entry 5 (DEDUCED). -/
def Obligations.FailedTransactionsChangeNothing : Prop :=
  ∀ (t : Transaction) (s : State),
    (transactionFailure t s = none → (perform t s).status = .ok) ∧
    (∀ f, transactionFailure t s = some f →
      perform t s = { state := s, status := .failed f, event := none })

/-- No failure is latched and none is got past (spec/60_exceptions.md, reporting): a step that fails fails again with the
same kind after any steps, ticks, key changes and acknowledgements, which meanwhile change no register, I, PC, SP,
stack entry, pixel or byte; only a `load` or a `reset` can help. "No latch" is the spec's decision D16; schedules are log
entry 6's form (DESIGN CHOICE). -/
def Obligations.FailedStepFailsUntilLoadOrReset : Prop :=
  ∀ (schedule : List Transaction) (s : State) (f : Fault), step s = .fault f →
    (∀ t ∈ schedule, t ≠ .reset ∧ ∀ rom, t ≠ .load rom) →
    step (runSchedule schedule s) = .fault f ∧
    OnlyChanges s (runSchedule schedule s) ({.dt, .st, .dirty} ∪ keypad)

/-! ## The whole machine -/

/-- The failures of spec/60_exceptions.md's table and no others: every instruction, in every state, commits when the
table gives it no failure there and fails with the table's kind when it does. Fx1E's and the key skips' rows are the
spec's decisions D4 and D7. -/
def Obligations.InstructionsFailExactlyAsListed : Prop :=
  ∀ (i : Instr) (s : State),
    (failureOf i s = none → ∃ t, exec i s = .next t) ∧
    (∀ f, failureOf i s = some f → exec i s = .fault f)

/-- The order of a step's checks (spec/60_exceptions.md, priority): the fetch bound, then the opcode, then the
instruction's own check. A step fails for these reasons and no other, and is never refused. -/
def Obligations.StepFailsInPriorityOrder : Prop :=
  ∀ s : State,
    (∀ f, step s = .fault f ↔
      (s.pc.toNat + 1 > 0xFFF ∧ f = .outOfBounds) ∨
      (s.pc.toNat + 1 ≤ 0xFFF ∧ ∃ op, s.fetch? = some op ∧
        (((∃ e, decode op = .error e) ∧ f = .invalidOpcode) ∨
          (∃ i, decode op = .ok i ∧ failureOf i s = some f)))) ∧
    (∀ r, step s ≠ .refused r)

/-- R85: the next PC of every instruction that commits is its class's: the computed target, `PC + 4` or `PC + 2` by the
condition, the wait's, or `PC + 2`; and a step that fails leaves PC unchanged. -/
def Obligations.NextPcFollowsItsClass : Prop :=
  (∀ (i : Instr) (s t : State), exec i s = .next t → t.pc = nextPc i s) ∧
  (∀ (s : State) (f : Fault), (perform .step s).status = .failed f → (perform .step s).state.pc = s.pc)

/-- The frame of every instruction at once: an instruction that commits changes no cell, register, timer, key, pixel or
byte but those the spec names for it (the "written by" clauses of spec/10_state.md and the rule of each instruction);
in particular no instruction writes a key, and none but Fx33 and Fx55 writes memory. -/
def Obligations.InstructionsChangeOnlyTheirParts : Prop :=
  ∀ (i : Instr) (s t : State), exec i s = .next t → OnlyChanges s t (mayWrite i s)

/-- VF as a flag (spec/10_state.md, the flag writers): the six flag writers leave 0 or 1 in it unless it is also their
destination; every other instruction that does not name it as destination leaves it as it was. -/
def Obligations.OnlyFlagWritersTouchVf : Prop :=
  ∀ (i : Instr) (s t : State), exec i s = .next t → destination? i ≠ some 15 →
    (writesFlag i = true → t.reg 15 = 0#8 ∨ t.reg 15 = 1#8) ∧
    (writesFlag i = false → t.reg 15 = s.reg 15)

/-- What cannot be learned: an instruction that is not Cxnn runs the same whatever the model's draw counter is, one that
reads no key the same whatever the keys are, and none reads ST or DIRTY (spec/10_state.md, the "read by" clauses;
spec/40_step_cycle.md: the random byte is "sampled only by Cxnn"). The counter `draws` is the model's own field and
stands for the random input: the byte a state's Cxnn would sample is `Config.randomByte` at the counter, so a state with
another counter is one with another random input (log entry 1, DESIGN CHOICE). -/
def Obligations.InputsReachOnlyTheirReaders : Prop :=
  ∀ (i : Instr) (s : State),
    (∀ d : Nat, (∀ x nn, i ≠ .rnd x nn) →
      exec i { s with draws := d } = mapNext (fun t => { t with draws := d }) (exec i s)) ∧
    (∀ key : Vector Bool 16, readsKeys i = false →
      exec i { s with key := key } = mapNext (fun t => { t with key := key }) (exec i s)) ∧
    (∀ b : Byte, (∀ x, i ≠ .ldStVx x) →
      exec i { s with st := b } = mapNext (fun t => { t with st := b }) (exec i s)) ∧
    (∀ x, i = .ldStVx x → ∀ b : Byte, exec i { s with st := b } = exec i s) ∧
    (∀ b : Bool, i ≠ .cls → (∀ x y n, i ≠ .drw x y n) →
      exec i { s with dirty := b } = mapNext (fun t => { t with dirty := b }) (exec i s)) ∧
    (∀ b : Bool, (i = .cls ∨ ∃ x y n, i = .drw x y n) → exec i { s with dirty := b } = exec i s)

/-! ## The invariant -/

/-- The invariant holds after reset. -/
def Obligations.InvariantHoldsAtReset : Prop := State.reset.Inv

/-- Every step keeps the invariant: memory stays in its canonical form inside 0x000 to 0xFFF, PC stays at most 0x10FE and
the return addresses in use at most 0x1000 (spec/10_state.md, PC range: there is no wrap). -/
def Obligations.StepKeepsTheInvariant : Prop :=
  ∀ s t : State, s.Inv → step s = .next t → t.Inv

/-- Every schedule of transactions keeps the invariant. Any finite interleaving of steps, ticks, key changes and
acknowledgements is legal by R81; that a `load` or a `reset` may stand anywhere among them is R203's and R202's, by the
spec's decisions D24 and D11 (log entry 14); that a run is a list of transactions is the model's form (log entry 6,
DESIGN CHOICE). -/
def Obligations.EveryScheduleKeepsTheInvariant : Prop :=
  ∀ (schedule : List Transaction) (s : State), s.Inv → (runSchedule schedule s).Inv
end

