-- ==== Sys2Proof/Laws/Decode.lean ====
section
/-! SUPPORT. Field extraction from packed opcodes, so that no proof about decoding or encoding computes with bits. -/

namespace Sys2Proof

@[simp] theorem toFin_regField (r : Reg) : (regField r).toFin = r := rfl
@[simp] theorem regField_toFin (b : BitVec 4) : regField b.toFin = b := rfl

/-- Concatenation as arithmetic: the left part above the right. -/
theorem toNat_append_eq {m n : Nat} (a : BitVec m) (b : BitVec n) :
    (a ++ b).toNat = 2 ^ n * a.toNat + b.toNat := by
  rw [BitVec.toNat_append, ← Nat.shiftLeft_add_eq_or_of_lt b.isLt, Nat.shiftLeft_eq, Nat.mul_comm]

theorem toNat_packA (f : BitVec 4) (a : Addr12) : (packA f a).toNat = 4096 * f.toNat + a.toNat :=
  toNat_append_eq f a

theorem toNat_packI (f : BitVec 4) (x : Reg) (nn : Byte) :
    (packI f x nn).toNat = 4096 * f.toNat + 256 * x.val + nn.toNat := by
  have h := toNat_append_eq (f ++ regField x) nn
  have h' := toNat_append_eq f (regField x)
  have hx : (regField x).toNat = x.val := rfl
  change ((f ++ regField x) ++ nn).toNat = _
  omega

theorem toNat_packR (f : BitVec 4) (x y : Reg) (n : BitVec 4) :
    (packR f x y n).toNat = 4096 * f.toNat + 256 * x.val + 16 * y.val + n.toNat := by
  have h := toNat_append_eq (f ++ regField x ++ regField y) n
  have h' := toNat_append_eq (f ++ regField x) (regField y)
  have h'' := toNat_append_eq f (regField x)
  have hx : (regField x).toNat = x.val := rfl
  have hy : (regField y).toNat = y.val := rfl
  change ((f ++ regField x ++ regField y) ++ n).toNat = _
  omega

/-! ### Fields as numbers -/

theorem toNat_famOf (op : Word) : (famOf op).toNat = op.toNat / 4096 := by
  have := op.isLt
  simp [famOf, BitVec.extractLsb'_toNat, Nat.shiftRight_eq_div_pow]
  omega

theorem val_xOf (op : Word) : (xOf op).val = op.toNat / 256 % 16 := by
  simp [xOf, Nat.shiftRight_eq_div_pow]

theorem val_yOf (op : Word) : (yOf op).val = op.toNat / 16 % 16 := by
  simp [yOf, Nat.shiftRight_eq_div_pow]

theorem nOf_eq (op : Word) : nOf op = op.toNat % 16 := by
  simp [nOf]

theorem toNat_nnOf (op : Word) : (nnOf op).toNat = op.toNat % 256 := by
  simp [nnOf]

theorem toNat_nnnOf (op : Word) : (nnnOf op).toNat = op.toNat % 4096 := by
  simp [nnnOf]

/-- The sprite height an opcode holds fits its field. -/
theorem nOf_lt (op : Word) : nOf op < 16 := by rw [nOf_eq]; omega

/-! ### Fields of packed opcodes -/

@[simp] theorem famOf_packA (f : BitVec 4) (a : Addr12) : famOf (packA f a) = f := by
  apply BitVec.eq_of_toNat_eq; rw [toNat_famOf, toNat_packA]; omega

@[simp] theorem nnnOf_packA (f : BitVec 4) (a : Addr12) : nnnOf (packA f a) = a := by
  apply BitVec.eq_of_toNat_eq; rw [toNat_nnnOf, toNat_packA]; omega

@[simp] theorem famOf_packI (f : BitVec 4) (x : Reg) (nn : Byte) : famOf (packI f x nn) = f := by
  apply BitVec.eq_of_toNat_eq; rw [toNat_famOf, toNat_packI]; omega

@[simp] theorem xOf_packI (f : BitVec 4) (x : Reg) (nn : Byte) : xOf (packI f x nn) = x := by
  apply Fin.ext; rw [val_xOf, toNat_packI]; omega

@[simp] theorem nnOf_packI (f : BitVec 4) (x : Reg) (nn : Byte) : nnOf (packI f x nn) = nn := by
  apply BitVec.eq_of_toNat_eq; rw [toNat_nnOf, toNat_packI]; omega

@[simp] theorem famOf_packR (f : BitVec 4) (x y : Reg) (n : BitVec 4) : famOf (packR f x y n) = f := by
  apply BitVec.eq_of_toNat_eq; rw [toNat_famOf, toNat_packR]; omega

@[simp] theorem xOf_packR (f : BitVec 4) (x y : Reg) (n : BitVec 4) : xOf (packR f x y n) = x := by
  apply Fin.ext; rw [val_xOf, toNat_packR]; omega

@[simp] theorem yOf_packR (f : BitVec 4) (x y : Reg) (n : BitVec 4) : yOf (packR f x y n) = y := by
  apply Fin.ext; rw [val_yOf, toNat_packR]; omega

@[simp] theorem nOf_packR (f : BitVec 4) (x y : Reg) (n : BitVec 4) : nOf (packR f x y n) = n.toNat := by
  rw [nOf_eq, toNat_packR]; omega

/-! ### Packing the fields of an opcode -/

theorem packA_fields (op : Word) : packA (famOf op) (nnnOf op) = op := by
  apply BitVec.eq_of_toNat_eq; rw [toNat_packA, toNat_famOf, toNat_nnnOf]; omega

theorem packI_fields (op : Word) : packI (famOf op) (xOf op) (nnOf op) = op := by
  apply BitVec.eq_of_toNat_eq; rw [toNat_packI, toNat_famOf, val_xOf, toNat_nnOf]; omega

theorem packR_fields (op : Word) : packR (famOf op) (xOf op) (yOf op) (BitVec.ofNat 4 (nOf op)) = op := by
  apply BitVec.eq_of_toNat_eq
  rw [toNat_packR, toNat_famOf, val_xOf, val_yOf, nOf_eq, BitVec.toNat_ofNat]; omega

/-! ### Masking packed opcodes (R64) -/

theorem packA_and_family (f : BitVec 4) (a : Addr12) : packA f a &&& 0xF000#16 = packA f 0#12 := by
  have h : (f ++ a) &&& (0xF#4 ++ 0x000#12) = (f &&& 0xF#4) ++ (a &&& 0x000#12) := BitVec.and_append
  have hf : f &&& 0xF#4 = f := BitVec.and_allOnes
  have ha : a &&& 0x000#12 = 0#12 := BitVec.and_zero
  rw [hf, ha] at h
  exact h

theorem packI_and_family (f : BitVec 4) (x : Reg) (nn : Byte) : packI f x nn &&& 0xF000#16 = packI f 0 0#8 := by
  have h : (f ++ regField x ++ nn) &&& (0xF#4 ++ 0x0#4 ++ 0x00#8) =
      ((f &&& 0xF#4) ++ (regField x &&& 0x0#4)) ++ (nn &&& 0x00#8) := by
    rw [BitVec.and_append, BitVec.and_append]
  have hf : f &&& 0xF#4 = f := BitVec.and_allOnes
  have hx : regField x &&& 0x0#4 = 0#4 := BitVec.and_zero
  have hn : nn &&& 0x00#8 = 0#8 := BitVec.and_zero
  rw [hf, hx, hn] at h
  exact h

theorem packI_and_subop (f : BitVec 4) (x : Reg) (nn : Byte) : packI f x nn &&& 0xF0FF#16 = packI f 0 nn := by
  have h : (f ++ regField x ++ nn) &&& (0xF#4 ++ 0x0#4 ++ 0xFF#8) =
      ((f &&& 0xF#4) ++ (regField x &&& 0x0#4)) ++ (nn &&& 0xFF#8) := by
    rw [BitVec.and_append, BitVec.and_append]
  have hf : f &&& 0xF#4 = f := BitVec.and_allOnes
  have hx : regField x &&& 0x0#4 = 0#4 := BitVec.and_zero
  have hn : nn &&& 0xFF#8 = nn := BitVec.and_allOnes
  rw [hf, hx, hn] at h
  exact h

theorem packR_and_family (f : BitVec 4) (x y : Reg) (n : BitVec 4) :
    packR f x y n &&& 0xF000#16 = packR f 0 0 0#4 := by
  have h : (f ++ regField x ++ regField y ++ n) &&& (0xF#4 ++ 0x0#4 ++ 0x0#4 ++ 0x0#4) =
      (((f &&& 0xF#4) ++ (regField x &&& 0x0#4)) ++ (regField y &&& 0x0#4)) ++ (n &&& 0x0#4) := by
    rw [BitVec.and_append, BitVec.and_append, BitVec.and_append]
  have hf : f &&& 0xF#4 = f := BitVec.and_allOnes
  have hz : ∀ b : BitVec 4, b &&& 0x0#4 = 0#4 := fun b => BitVec.and_zero
  rw [hf, hz, hz, hz] at h
  exact h

theorem packR_and_subop (f : BitVec 4) (x y : Reg) (n : BitVec 4) :
    packR f x y n &&& 0xF00F#16 = packR f 0 0 n := by
  have h : (f ++ regField x ++ regField y ++ n) &&& (0xF#4 ++ 0x0#4 ++ 0x0#4 ++ 0xF#4) =
      (((f &&& 0xF#4) ++ (regField x &&& 0x0#4)) ++ (regField y &&& 0x0#4)) ++ (n &&& 0xF#4) := by
    rw [BitVec.and_append, BitVec.and_append, BitVec.and_append]
  have ho : ∀ b : BitVec 4, b &&& 0xF#4 = b := fun b => BitVec.and_allOnes
  have hz : ∀ b : BitVec 4, b &&& 0x0#4 = 0#4 := fun b => BitVec.and_zero
  rw [ho, ho, hz, hz] at h
  exact h

/-! ### Bytes of an opcode -/

/-- `Mem[a] * 256 + Mem[a+1]`. -/
theorem toNat_opcodeOfBytes (hi lo : Byte) : (opcodeOfBytes hi lo).toNat = hi.toNat * 256 + lo.toNat := by
  have h := toNat_append_eq hi lo
  change (hi ++ lo).toNat = _
  omega

theorem opcodeOfBytes_bytes (op : Word) : opcodeOfBytes (opcodeHi op) (opcodeLo op) = op := by
  have h2 : (opcodeHi op).toNat = op.toNat / 256 % 256 := by
    simp [opcodeHi, Nat.shiftRight_eq_div_pow]
  have h3 : (opcodeLo op).toNat = op.toNat % 256 := by simp [opcodeLo]
  have := op.isLt
  apply BitVec.eq_of_toNat_eq
  rw [toNat_opcodeOfBytes, h2, h3]
  omega

end Sys2Proof
end

