-- ==== Sys2Proof/Laws/Memory.lean ====
section
/-! SUPPORT. The laws of memory: a write is read back and leaves every other byte alone, every operation keeps the
canonical form, and canonical memories that read the same are the same. -/

namespace Sys2Proof.Machine

/-! ### Reading after one write -/

@[simp] theorem Memory.read_nil (a : Nat) : Memory.read [] a = memInit a := rfl

theorem Memory.read_cons (k a : Nat) (b : Byte) (rest : Memory) :
    Memory.read ((k, b) :: rest) a = if a = k then b else Memory.read rest a := rfl

/-- An address below every listed one reads as its reset contents. -/
theorem Memory.read_of_lt_all {m : Memory} {a : Nat} (h : ∀ c ∈ m, a < c.1) : m.read a = memInit a := by
  induction m with
  | nil => rfl
  | cons c rest ih =>
    have hc := h c (by simp)
    rw [show c = (c.1, c.2) from rfl, Memory.read_cons, if_neg (by omega)]
    exact ih fun d hd => h d (by simp [hd])

theorem Memory.read_cons_ne {a a' : Nat} {b : Byte} {rest : Memory} (h : a' ≠ a) :
    (Memory.cons a b rest).read a' = rest.read a' := by
  unfold Memory.cons
  split
  · rfl
  · rw [Memory.read_cons, if_neg h]

theorem Memory.read_cons_eq {a : Nat} {b : Byte} {rest : Memory} (h : ∀ c ∈ rest, a < c.1) :
    (Memory.cons a b rest).read a = b := by
  unfold Memory.cons
  split
  · rw [Memory.read_of_lt_all h, ‹b = _›]
  · rw [Memory.read_cons, if_pos rfl]

/-- A write leaves every other byte alone, whatever the list. -/
theorem Memory.read_write_ne {m : Memory} {a a' : Nat} {b : Byte} (h : a' ≠ a) :
    (m.write a b).read a' = m.read a' := by
  induction m with
  | nil => exact Memory.read_cons_ne h
  | cons c rest ih =>
    obtain ⟨k, d⟩ := c
    simp only [Memory.write]
    split
    · exact Memory.read_cons_ne h
    · split
      · rw [Memory.read_cons_ne h, Memory.read_cons, if_neg (by omega)]
      · rw [Memory.read_cons, Memory.read_cons, ih]

/-- A written byte is read back from a canonical memory. -/
theorem Memory.read_write_eq {m : Memory} {a : Nat} {b : Byte} (h : m.wf) : (m.write a b).read a = b := by
  obtain ⟨hp, hc⟩ := h
  induction m with
  | nil => exact Memory.read_cons_eq (by simp)
  | cons c rest ih =>
    obtain ⟨k, d⟩ := c
    rw [List.pairwise_cons] at hp
    simp only [Memory.write]
    split
    · refine Memory.read_cons_eq fun e he => ?_
      rcases List.mem_cons.1 he with rfl | he
      · assumption
      · have := hp.1 e he
        simp only at this
        omega
    · split
      · exact Memory.read_cons_eq fun e he => by have := hp.1 e he; simp only at this; omega
      · rw [Memory.read_cons, if_neg (by omega)]
        exact ih hp.2 fun e he => hc e (by simp [he])

theorem Memory.read_write {m : Memory} (h : m.wf) (a a' : Nat) (b : Byte) :
    (m.write a b).read a' = if a' = a then b else m.read a' := by
  split
  · subst a'; exact Memory.read_write_eq h
  · exact Memory.read_write_ne ‹_›

/-! ### The canonical form -/

theorem Memory.wf_nil : Memory.wf [] := by simp [Memory.wf]

theorem Memory.wf_tail {c : Host.Cell} {rest : Memory} (h : Memory.wf (c :: rest)) : rest.wf :=
  ⟨(List.pairwise_cons.1 h.1).2, fun d hd => h.2 d (by simp [hd])⟩

theorem Memory.wf_cons_of {a : Nat} {b : Byte} {rest : Memory} (hr : rest.wf) (ha : a < Config.memSize)
    (hl : ∀ c ∈ rest, a < c.1) : (Memory.cons a b rest).wf := by
  unfold Memory.cons
  split
  · exact hr
  · refine ⟨List.pairwise_cons.2 ⟨hl, hr.1⟩, fun c hc => ?_⟩
    rcases List.mem_cons.1 hc with rfl | hc
    · exact ⟨ha, ‹_›⟩
    · exact hr.2 c hc

/-- Every entry of a written list is an old entry or lies at the written address. -/
theorem Memory.mem_write {m : Memory} {a : Nat} {b : Byte} {c : Host.Cell} (h : c ∈ m.write a b) :
    c ∈ m ∨ c.1 = a := by
  have hcons : ∀ rest : Memory, c ∈ Memory.cons a b rest → c ∈ rest ∨ c.1 = a := by
    intro rest hr
    unfold Memory.cons at hr
    split at hr
    · exact .inl hr
    · rcases List.mem_cons.1 hr with rfl | hr
      · exact .inr rfl
      · exact .inl hr
  induction m with
  | nil => exact hcons [] h
  | cons d rest ih =>
    obtain ⟨k, d⟩ := d
    simp only [Memory.write] at h
    split at h
    · exact hcons _ h
    · split at h
      · exact (hcons _ h).imp_left fun hr => by simp [hr]
      · rcases List.mem_cons.1 h with rfl | h
        · simp
        · exact (ih h).imp_left fun hr => by simp [hr]

/-- A write inside the address space keeps the canonical form. -/
theorem Memory.wf_write {m : Memory} {a : Nat} {b : Byte} (h : m.wf) (ha : a < Config.memSize) :
    (m.write a b).wf := by
  induction m with
  | nil => exact Memory.wf_cons_of h ha (by simp)
  | cons c rest ih =>
    obtain ⟨k, d⟩ := c
    have hk := (List.pairwise_cons.1 h.1).1
    simp only [Memory.write]
    split
    · refine Memory.wf_cons_of h ha fun e he => ?_
      rcases List.mem_cons.1 he with rfl | he
      · assumption
      · have := hk e he
        simp only at this
        omega
    · split
      · exact Memory.wf_cons_of (Memory.wf_tail h) ha fun e he => by
          have := hk e he; simp only at this; omega
      · have ih := ih (Memory.wf_tail h)
        refine ⟨List.pairwise_cons.2 ⟨fun e he => ?_, ih.1⟩, fun e he => ?_⟩
        · rcases Memory.mem_write he with he | he
          · exact hk e he
          · simp only; omega
        · rcases List.mem_cons.1 he with rfl | he
          · exact h.2 _ (by simp)
          · exact ih.2 e he

/-! ### Several bytes -/

@[simp] theorem Memory.length_readList (m : Memory) (base n : Nat) : (m.readList base n).length = n := by
  induction n generalizing base with
  | zero => rfl
  | succ n ih => simp [Memory.readList, ih]

theorem Memory.getElem?_readList {m : Memory} {base n k : Nat} (h : k < n) :
    (m.readList base n)[k]? = some (m.read (base + k)) := by
  induction n generalizing base k with
  | zero => omega
  | succ n ih =>
    cases k with
    | zero => rfl
    | succ k => simp [Memory.readList, ih (show k < n by omega), Nat.add_right_comm, Nat.add_assoc]

theorem Memory.wf_writeList {m : Memory} {base : Nat} {bs : List Byte} (h : m.wf)
    (hb : base + bs.length ≤ Config.memSize) : (m.writeList base bs).wf := by
  induction bs generalizing m base with
  | nil => exact h
  | cons b bs ih =>
    simp only [List.length_cons] at hb
    exact ih (Memory.wf_write h (by omega)) (by omega)

/-- Bytes outside the written range are as before. -/
theorem Memory.read_writeList_outside {m : Memory} {base : Nat} {bs : List Byte} {a : Nat}
    (h : a < base ∨ base + bs.length ≤ a) : (m.writeList base bs).read a = m.read a := by
  induction bs generalizing m base with
  | nil => rfl
  | cons b bs ih =>
    simp only [List.length_cons] at h
    rw [Memory.writeList, ih (by omega), Memory.read_write_ne (by omega)]

/-- Byte `k` of the written range is byte `k` of what was written. -/
theorem Memory.read_writeList_inside {m : Memory} {base : Nat} {bs : List Byte} (h : m.wf)
    (hb : base + bs.length ≤ Config.memSize) {k : Nat} (hk : k < bs.length) :
    (m.writeList base bs).read (base + k) = bs[k] := by
  induction bs generalizing m base k with
  | nil => simp at hk
  | cons b bs ih =>
    simp only [List.length_cons] at hb hk
    rw [Memory.writeList]
    cases k with
    | zero => rw [Memory.read_writeList_outside (by omega)]; exact Memory.read_write_eq h
    | succ k =>
      have := ih (m := m.write base b) (base := base + 1) (Memory.wf_write h (by omega)) (by omega)
        (show k < bs.length by omega)
      simpa [Nat.add_comm, Nat.add_left_comm] using this

/-- What any address reads as after a store: the stored byte inside the range, what was there outside it. -/
theorem Memory.read_writeList {m : Memory} {base : Nat} {bs : List Byte} (h : m.wf)
    (hb : base + bs.length ≤ Config.memSize) (a : Nat) :
    (m.writeList base bs).read a = if base ≤ a then bs.getD (a - base) (m.read a) else m.read a := by
  split
  · by_cases ha : a - base < bs.length
    · have := Memory.read_writeList_inside h hb ha
      rwa [Nat.add_sub_cancel' ‹_›, ← List.getD_eq_getElem _ (m.read a) ha] at this
    · rw [Memory.read_writeList_outside (by omega), List.getD_eq_default _ _ (by omega)]
  · exact Memory.read_writeList_outside (by omega)

/-! ### Equality -/

/-- Canonical memories that read the same at every address are equal lists. -/
theorem Memory.ext_read {m m' : Memory} (h : m.wf) (h' : m'.wf) (hr : ∀ a, m.read a = m'.read a) : m = m' := by
  induction m generalizing m' with
  | nil =>
    cases m' with
    | nil => rfl
    | cons c rest =>
      have := hr c.1
      rw [show c = (c.1, c.2) from rfl, Memory.read_cons, if_pos rfl] at this
      exact absurd this.symm (h'.2 c (by simp)).2
  | cons c rest ih =>
    have lt_all : ∀ {d : Host.Cell} {l : Memory}, Memory.wf (d :: l) → ∀ e ∈ l, d.1 < e.1 :=
      fun hw => (List.pairwise_cons.1 hw.1).1
    have head : ∀ (d : Host.Cell) (l : Memory), Memory.read (d :: l) d.1 = d.2 := by
      intro d l; rw [show d = (d.1, d.2) from rfl, Memory.read_cons, if_pos rfl]
    have below : ∀ {d : Host.Cell} {l : Memory} {a : Nat}, Memory.wf (d :: l) → a < d.1 →
        Memory.read (d :: l) a = memInit a := by
      intro d l a hw ha
      refine Memory.read_of_lt_all fun e he => ?_
      rcases List.mem_cons.1 he with rfl | he
      · exact ha
      · have := lt_all hw e he; omega
    cases m' with
    | nil =>
      have := hr c.1
      rw [head] at this
      exact absurd this (h.2 c (by simp)).2
    | cons c' rest' =>
      have hk : c.1 = c'.1 := by
        rcases Nat.lt_trichotomy c.1 c'.1 with hlt | heq | hgt
        · have := hr c.1
          rw [head, below h' hlt] at this
          exact absurd this (h.2 c (by simp)).2
        · exact heq
        · have := hr c'.1
          rw [head, below h hgt] at this
          exact absurd this.symm (h'.2 c' (by simp)).2
      have hc : c = c' := by
        have := hr c.1
        rw [head, hk, head] at this
        exact Prod.ext hk this
      subst hc
      congr 1
      refine ih (Memory.wf_tail h) (Memory.wf_tail h') fun a => ?_
      by_cases ha : a = c.1
      · subst ha
        rw [Memory.read_of_lt_all (lt_all h), Memory.read_of_lt_all (lt_all h')]
      · have := hr a
        rwa [show c = (c.1, c.2) from rfl, Memory.read_cons, Memory.read_cons, if_neg ha, if_neg ha] at this

/-! ### The bound check -/

@[simp] theorem rangeOk_iff (base n : Nat) : rangeOk base n = true ↔ n = 0 ∨ base + n ≤ 4096 := by
  simp [rangeOk]

end Sys2Proof.Machine
end

