-- ==== Sys2Proof/Laws/Ops.lean ====
section
/-! SUPPORT. One lemma per shared operation that says everything it can do; proofs about meanings cite these. -/

namespace Sys2Proof.Machine

variable (s : State)

/-! ### Registers -/

theorem State.reg_setReg (r q : Reg) (b : Byte) : (s.setReg r b).reg q = if q = r then b else s.reg q := by
  simp only [State.reg, State.setReg, Fin.getElem_fin, Vector.getElem_set, Fin.ext_iff, eq_comm]

@[simp] theorem State.reg_setReg_same (r : Reg) (b : Byte) : (s.setReg r b).reg r = b := by
  simp [State.reg_setReg]

/-- A register reads by `v` alone. -/
theorem State.reg_congr {s t : State} (h : t.v = s.v) (r : Reg) : t.reg r = s.reg r := by
  simp [State.reg, h]

@[simp] theorem State.reg_setPc (w : Word) (r : Reg) : (s.setPc w).reg r = s.reg r := rfl
@[simp] theorem State.reg_advance (r : Reg) : s.advance.reg r = s.reg r := rfl
@[simp] theorem State.reg_setI (w : Word) (r : Reg) : (s.setI w).reg r = s.reg r := rfl
@[simp] theorem State.reg_storeBytes (a : Nat) (bs : List Byte) (r : Reg) : (s.storeBytes a bs).reg r = s.reg r := rfl
@[simp] theorem State.reg_setFb (fb : Framebuffer) (r : Reg) : (s.setFb fb).reg r = s.reg r := rfl
@[simp] theorem State.reg_nextDraw (r : Reg) : s.nextDraw.reg r = s.reg r := rfl
@[simp] theorem State.reg_skipIf (c : Bool) (r : Reg) : (s.skipIf c).reg r = s.reg r := by cases c <;> rfl

/-- Loading registers from `k` up: register `k + j` takes byte `j`, the others keep their values. -/
theorem getElem_loadInto (bs : List Byte) (v : Vector Byte 16) (k q : Nat) (hq : q < 16) :
    (loadInto k bs v)[q] = if k ≤ q then bs.getD (q - k) v[q] else v[q] := by
  induction bs generalizing k v with
  | nil => simp [loadInto]
  | cons b bs ih =>
    rw [loadInto, ih]
    by_cases h1 : k + 1 ≤ q
    · rw [if_pos h1, if_pos (by omega), Vector.getElem_setIfInBounds_ne hq (by omega),
        show q - k = (q - (k + 1)) + 1 by omega, List.getD_cons_succ]
    · rw [if_neg h1]
      by_cases h2 : k = q
      · subst h2; simp
      · rw [if_neg (by omega), Vector.getElem_setIfInBounds_ne hq h2]

theorem State.reg_setRegList (bs : List Byte) (r : Reg) : (s.setRegList bs).reg r = bs.getD r.val (s.reg r) := by
  simp [State.reg, getElem_loadInto]

@[simp] theorem State.length_regList {n : Nat} (h : n ≤ 16) : (s.regList n).length = n := by
  simp [State.regList, h]

/-- Byte `k` of a register list is `V[k]`. -/
theorem State.getElem_regList {n k : Nat} (hn : n ≤ 16) (hk : k < n) :
    (s.regList n)[k]'(by simp [hn, hk]) = s.reg ⟨k, by omega⟩ := by
  simp [State.regList, State.reg]

/-! ### PC -/

theorem State.skipIf_pc_eq (c : Bool) : (s.skipIf c).pc = if c = true then s.pc + 4#16 else s.pc + 2#16 := by
  cases c <;> rfl

/-! ### Stack -/

/-- A push succeeds exactly below sixteen entries; then it changes one entry and SP. -/
theorem State.push?_eq_some {s t : State} {w : Word} (h : s.push? w = some t) :
    ∃ hs : s.sp.val < 16, t.sp.val = s.sp.val + 1 ∧ t = { s with stack := s.stack.set s.sp.val w hs, sp := t.sp } := by
  unfold State.push? at h
  split at h
  · obtain rfl := Option.some.inj h
    exact ⟨‹_›, rfl, rfl⟩
  · cases h

theorem State.push?_eq_none {s : State} {w : Word} : s.push? w = none ↔ s.sp.val = 16 := by
  have := s.sp.isLt
  unfold State.push?
  split
  · rename_i h
    simp only [Config.stackDepth] at h
    simp only [reduceCtorEq, false_iff]
    omega
  · rename_i h
    simp only [Config.stackDepth] at h
    simp only [true_iff]
    omega

/-- A pop succeeds exactly on a stack that is not empty; then it reads the top entry and changes SP alone. -/
theorem State.pop?_eq_some {s t : State} {w : Word} (h : s.pop? = some (w, t)) :
    ∃ _ : s.sp.val ≠ 0, w = s.stack[s.sp.val - 1]'(by have := s.sp.isLt; omega) ∧
      t.sp.val + 1 = s.sp.val ∧ t = { s with sp := t.sp } := by
  unfold State.pop? at h
  split at h
  · cases h
  · obtain ⟨rfl, rfl⟩ := Prod.mk.inj (Option.some.inj h)
    exact ⟨‹_›, rfl, by simp only; omega, rfl⟩

theorem State.pop?_eq_none {s : State} : s.pop? = none ↔ s.sp.val = 0 := by
  unfold State.pop?
  split <;> simp [*]

/-! ### Keys -/

theorem State.key?_eq_none {s : State} {k : Nat} : s.key? k = none ↔ 16 ≤ k := by
  simp [State.key?]

theorem State.key?_of_lt {k : Nat} (h : k < 16) : s.key? k = some s.key[k] := by
  simp [State.key?, h]

theorem State.lowestKey?_eq_none {s : State} : s.lowestKey? = none ↔ ∀ k : Fin 16, s.key[k] = false := by
  rw [State.lowestKey?, List.findIdx?_eq_none_iff]
  constructor
  · intro h k
    simpa using h s.key[k] (by simp)
  · intro h b hb
    obtain ⟨k, hk, rfl⟩ := List.mem_iff_getElem.1 hb
    simpa using h ⟨k, by simpa using hk⟩

/-- The key found is pressed and every lower one is not. -/
theorem State.lowestKey?_eq_some {s : State} {k : Nat} :
    s.lowestKey? = some k ↔ ∃ h : k < 16, s.key[k] = true ∧ ∀ j : Fin 16, j.val < k → s.key[j] = false := by
  rw [State.lowestKey?, List.findIdx?_eq_some_iff_getElem]
  constructor
  · rintro ⟨h, hk, hlt⟩
    refine ⟨by simpa using h, by simpa using hk, fun j hj => ?_⟩
    simpa using hlt j.val hj
  · rintro ⟨h, hk, hlt⟩
    refine ⟨by simpa using h, by simpa using hk, fun j hj => ?_⟩
    simpa using hlt ⟨j, by omega⟩ hj

/-! ### Memory -/

@[simp] theorem State.byte_setReg (r : Reg) (b : Byte) (a : Nat) : (s.setReg r b).byte a = s.byte a := rfl
@[simp] theorem State.byte_advance (a : Nat) : s.advance.byte a = s.byte a := rfl
@[simp] theorem State.byte_setPc (w : Word) (a : Nat) : (s.setPc w).byte a = s.byte a := rfl
@[simp] theorem State.byte_setI (w : Word) (a : Nat) : (s.setI w).byte a = s.byte a := rfl
@[simp] theorem State.byte_setFb (fb : Framebuffer) (a : Nat) : (s.setFb fb).byte a = s.byte a := rfl

theorem State.byte_storeBytes_outside {base : Nat} {bs : List Byte} {a : Nat}
    (h : a < base ∨ base + bs.length ≤ a) : (s.storeBytes base bs).byte a = s.byte a :=
  Memory.read_writeList_outside h

theorem State.byte_storeBytes_inside {base : Nat} {bs : List Byte} (hw : s.mem.wf)
    (hb : base + bs.length ≤ Config.memSize) {k : Nat} (hk : k < bs.length) :
    (s.storeBytes base bs).byte (base + k) = bs[k] :=
  Memory.read_writeList_inside hw hb hk

/-- What any address holds after a store, as claims say it. -/
theorem State.byte_storeBytes {base : Nat} {bs : List Byte} (hw : s.mem.wf) (hb : base + bs.length ≤ Config.memSize)
    (a : Nat) : (s.storeBytes base bs).byte a = overwritten s base bs a :=
  Memory.read_writeList hw hb a

/-- A store inside the address space keeps memory's canonical form. -/
theorem State.wf_storeBytes {base : Nat} {bs : List Byte} (hw : s.mem.wf) (hb : base + bs.length ≤ Config.memSize) :
    (s.storeBytes base bs).mem.wf :=
  Memory.wf_writeList hw hb

/-- Reset memory is in its canonical form. -/
theorem State.wf_reset : State.reset.mem.wf := Memory.wf_nil

/-- Placing an opcode keeps memory's canonical form. -/
theorem State.wf_placeOpcode (op : Word) (hw : s.mem.wf) : (s.placeOpcode op).mem.wf := by
  unfold State.placeOpcode
  split
  · rename_i h
    have := (rangeOk_iff _ _).1 h
    exact State.wf_storeBytes s hw (by simp only [opcodeBytes, List.length_cons, List.length_nil, Config.memSize]; omega)
  · exact hw

/-- `load` keeps memory's canonical form. -/
theorem wf_loadRom {rom : List Byte} {s t : State} (hw : s.mem.wf) (h : loadRom rom s = .next t) : t.mem.wf := by
  unfold loadRom at h
  split at h
  · cases h
  · rename_i hl
    cases h
    exact State.wf_storeBytes s hw (by simp only [Config.progBase, Config.romMax, Config.memSize] at *; omega)

theorem withRange_ok {base n : Nat} {go : Host.Outcome State Fault Refusal} (h : n = 0 ∨ base + n ≤ 4096) :
    withRange base n go = go := by
  rw [withRange, if_pos (by simpa using h)]

theorem withRange_fails {base n : Nat} {go : Host.Outcome State Fault Refusal} (h : n ≠ 0) (h' : 4096 < base + n) :
    withRange base n go = raise .outOfBounds := by
  rw [withRange, if_neg]
  simp only [rangeOk_iff]
  omega

/-! ### Framebuffer -/

/-- A flip changes one cell. -/
theorem Framebuffer.pixel_flip (fb : Framebuffer) (px qx : Fin 64) (py qy : Fin 32) :
    (fb.flip px py).pixel qx qy = (fb.pixel qx qy ^^ decide (qx = px ∧ qy = py)) := by
  have hq := qx.isLt
  simp only [Framebuffer.pixel, Framebuffer.flip, Fin.getElem_fin, Vector.getElem_set]
  by_cases hy : qy = py
  · subst hy
    rw [if_pos rfl, BitVec.getLsbD_xor]
    congr 1
    rw [← BitVec.twoPow_eq, BitVec.getLsbD_twoPow]
    have := px.isLt
    simp [this, Fin.ext_iff, eq_comm]
  · rw [if_neg (fun h => hy (Fin.ext h.symm))]
    simp [hy]

@[simp] theorem pixel_blank (px : Fin 64) (py : Fin 32) :
    Framebuffer.pixel (Vector.replicate 32 0) px py = false := by
  simp [Framebuffer.pixel]

/-! ### Fetch and step -/

theorem State.fetch?_ok (h : s.pc.toNat + 1 ≤ 0xFFF) :
    s.fetch? = some (opcodeOfBytes (s.byte s.pc.toNat) (s.byte (s.pc.toNat + 1))) := by
  rw [State.fetch?, if_pos]
  simp only [rangeOk_iff]
  omega

theorem State.fetch?_fails (h : s.pc.toNat + 1 > 0xFFF) : s.fetch? = none := by
  rw [State.fetch?, if_neg]
  simp only [rangeOk_iff]
  omega

/-- A step at a fetched opcode that decodes is the instruction's meaning. -/
theorem step_eq_exec {s : State} {op : Word} {i : Instr} (hf : s.fetch? = some op) (hd : decode op = .ok i) :
    step s = exec i s := by
  simp only [step, hf, hd]

/-- Everything a committing step does: it fetches an opcode inside memory, decodes it, and executes it. -/
theorem step_eq_next {s t : State} (h : step s = .next t) :
    s.pc.toNat + 1 ≤ 0xFFF ∧ ∃ op i, s.fetch? = some op ∧ decode op = .ok i ∧ exec i s = .next t := by
  unfold step at h
  split at h
  · cases h
  · rename_i op hop
    refine ⟨?_, ?_⟩
    · by_contra hc
      rw [State.fetch?_fails s (by omega)] at hop
      cases hop
    · split at h
      · exact ⟨op, _, hop, ‹_›, h⟩
      · cases h

end Sys2Proof.Machine
end

