-- ==== Sys2Proof/Laws/Display.lean ====
section
/-! SUPPORT. What drawing does, cell by cell: one lemma for a row and one for a sprite (spec/45_display.md R141, R144 a). -/

namespace Sys2Proof.Machine

/-- A set bit of a sprite row drawn from `x0` falls on column `qx`. -/
def RowOn (x0 : Nat) (b : Byte) (qx : Fin 64) : Prop :=
  ∃ c < 8, b.getLsbD (7 - c) = true ∧ qx = wrapX (x0 + c)

@[simp] theorem val_wrapX (n : Nat) : (wrapX n).val = n % 64 := rfl
@[simp] theorem val_wrapY (n : Nat) : (wrapY n).val = n % 32 := rfl

/-- The eight columns of a row are distinct cells. -/
theorem wrapX_inj {x0 c c' : Nat} (h : c < 8) (h' : c' < 8) (he : wrapX (x0 + c) = wrapX (x0 + c')) : c = c' := by
  have := congrArg Fin.val he
  simp only [val_wrapX] at this
  omega

/-- At most 32 rows are distinct cells. -/
theorem wrapY_inj {y r r' : Nat} (h : r < 32) (h' : r' < 32) (he : wrapY (y + r) = wrapY (y + r')) : r = r' := by
  have := congrArg Fin.val he
  simp only [val_wrapY] at this
  omega

/-- Drawing a list of distinct columns: a cell is toggled exactly when one of them puts a set bit on it, and a collision
is noted exactly when that cell was lit. -/
theorem foldl_drawColumn (x0 : Nat) (py : Fin 32) (b : Byte) (cs : List Nat) (hn : cs.Nodup) (h8 : ∀ c ∈ cs, c < 8)
    (cv : Canvas) :
    (∀ qx qy, (cs.foldl (drawColumn x0 py b) cv).fb.pixel qx qy = true ↔
      ¬ (cv.fb.pixel qx qy = true ↔ qy = py ∧ ∃ c ∈ cs, b.getLsbD (7 - c) = true ∧ qx = wrapX (x0 + c))) ∧
    ((cs.foldl (drawColumn x0 py b) cv).collision = true ↔ cv.collision = true ∨
      ∃ c ∈ cs, b.getLsbD (7 - c) = true ∧ cv.fb.pixel (wrapX (x0 + c)) py = true) := by
  induction cs generalizing cv with
  | nil => simp
  | cons c cs ih =>
    obtain ⟨hc, hn⟩ := List.nodup_cons.1 hn
    have ih := ih hn (fun d hd => h8 d (by simp [hd])) (drawColumn x0 py b cv c)
    have hne : ∀ d ∈ cs, wrapX (x0 + d) ≠ wrapX (x0 + c) := fun d hd he =>
      hc (wrapX_inj (h8 d (by simp [hd])) (h8 c (by simp)) he ▸ hd)
    rw [List.foldl_cons]
    by_cases hb : b.getLsbD (7 - c) = true
    · have hcol : drawColumn x0 py b cv c = toggleCell (wrapX (x0 + c)) py cv := if_pos hb
      rw [hcol] at ih ⊢
      constructor
      · intro qx qy
        rw [ih.1]
        simp only [toggleCell, Framebuffer.pixel_flip, List.mem_cons, exists_eq_or_imp, hb, true_and]
        by_cases hq : qx = wrapX (x0 + c) ∧ qy = py
        · have : ¬ ∃ d ∈ cs, b.getLsbD (7 - d) = true ∧ qx = wrapX (x0 + d) := by
            rintro ⟨d, hd, -, he⟩
            exact hne d hd (he ▸ hq.1)
          simp [hq, hq.1 ▸ this]
        · by_cases hy : qy = py
          · have hx : qx ≠ wrapX (x0 + c) := fun hx => hq ⟨hx, hy⟩
            simp [hy, hx]
          · simp [hy]
      · rw [ih.2]
        simp only [toggleCell, Framebuffer.pixel_flip, List.mem_cons, exists_eq_or_imp, hb, true_and,
          Bool.or_eq_true, or_assoc]
        refine or_congr_right (or_congr_right (exists_congr fun d => and_congr_right fun hd => ?_))
        simp [hne d hd]
    · have hcol : drawColumn x0 py b cv c = cv := if_neg hb
      rw [hcol] at ih ⊢
      simp [ih.1, ih.2, hb]

theorem mem_columns {c : Nat} : c ∈ [0, 1, 2, 3, 4, 5, 6, 7] ↔ c < 8 := by
  simp only [List.mem_cons, List.not_mem_nil, or_false]
  omega

/-- One row: a cell is toggled exactly when it lies in the row under a set bit, and a collision is noted exactly when
such a cell was lit. -/
theorem drawRow_spec (x0 : Nat) (py : Fin 32) (b : Byte) (cv : Canvas) :
    (∀ qx qy, (drawRow x0 py b cv).fb.pixel qx qy = true ↔
      ¬ (cv.fb.pixel qx qy = true ↔ qy = py ∧ RowOn x0 b qx)) ∧
    ((drawRow x0 py b cv).collision = true ↔ cv.collision = true ∨
      ∃ qx, RowOn x0 b qx ∧ cv.fb.pixel qx py = true) := by
  have h := foldl_drawColumn x0 py b [0, 1, 2, 3, 4, 5, 6, 7] (by decide) (fun c hc => mem_columns.1 hc) cv
  refine ⟨fun qx qy => ?_, ?_⟩
  · rw [show drawRow x0 py b cv = _ from rfl, drawRow, h.1]
    simp only [mem_columns, RowOn]
  · rw [drawRow, h.2]
    simp only [mem_columns, RowOn]
    refine or_congr_right ⟨?_, ?_⟩
    · rintro ⟨c, hc, hb, hp⟩
      exact ⟨_, ⟨c, hc, hb, rfl⟩, hp⟩
    · rintro ⟨qx, ⟨c, hc, hb, rfl⟩, hp⟩
      exact ⟨c, hc, hb, hp⟩

/-- A sprite of at most 32 rows: a cell is toggled exactly when a set bit falls on it, and a collision is noted exactly
when that cell was lit before the sprite. -/
theorem drawRows_spec (x0 y : Nat) (bs : List Byte) (hlen : bs.length ≤ 32) (cv : Canvas) :
    (∀ qx qy, (drawRows x0 y bs cv).fb.pixel qx qy = true ↔
      ¬ (cv.fb.pixel qx qy = true ↔ ∃ r, ∃ h : r < bs.length, qy = wrapY (y + r) ∧ RowOn x0 bs[r] qx)) ∧
    ((drawRows x0 y bs cv).collision = true ↔ cv.collision = true ∨
      ∃ r, ∃ h : r < bs.length, ∃ qx, RowOn x0 bs[r] qx ∧ cv.fb.pixel qx (wrapY (y + r)) = true) := by
  induction bs generalizing y cv with
  | nil => simp [drawRows]
  | cons b bs ih =>
    simp only [List.length_cons] at hlen
    have hrow := drawRow_spec x0 (wrapY y) b cv
    have ih := ih (y + 1) (by omega) (drawRow x0 (wrapY y) b cv)
    have split : ∀ P : (r : Nat) → r < (b :: bs).length → Prop,
        (∃ r, ∃ h : r < (b :: bs).length, P r h) ↔
          P 0 (by simp) ∨ ∃ r, ∃ h : r < bs.length, P (r + 1) (by simpa using h) := by
      intro P
      constructor
      · rintro ⟨r, h, hp⟩
        cases r with
        | zero => exact .inl hp
        | succ r => exact .inr ⟨r, by simpa using h, hp⟩
      · rintro (hp | ⟨r, h, hp⟩)
        · exact ⟨0, by simp, hp⟩
        · exact ⟨r + 1, by simpa using h, hp⟩
    have hne : ∀ r, r < bs.length → wrapY (y + 1 + r) ≠ wrapY y := fun r hr he => by
      have := congrArg Fin.val he
      simp only [val_wrapY] at this
      omega
    constructor
    · intro qx qy
      rw [drawRows, ih.1, hrow.1, split]
      simp only [Nat.add_zero, List.getElem_cons_zero, List.getElem_cons_succ, ← Nat.add_assoc,
        Nat.add_right_comm y _ 1]
      by_cases hq : qy = wrapY y
      · have hno : ¬ ∃ r, ∃ h : r < bs.length, qy = wrapY (y + 1 + r) ∧ RowOn x0 bs[r] qx := by
          rintro ⟨r, h, he, -⟩
          exact hne r h (he ▸ hq)
        subst hq
        simp only [hno, or_false, iff_false, not_not, true_and]
      · simp only [hq, false_and, false_or, iff_false, not_not]
    · rw [drawRows, ih.2, hrow.2, split, or_assoc]
      simp only [Nat.add_zero, List.getElem_cons_zero, List.getElem_cons_succ, ← Nat.add_assoc,
        Nat.add_right_comm y _ 1]
      refine or_congr_right (or_congr_right (exists_congr fun r => exists_congr fun h => exists_congr fun qx => ?_))
      refine and_congr_right fun _ => ?_
      rw [hrow.1]
      simp only [hne r h, false_and, iff_false, not_not]

end Sys2Proof.Machine
end

