-- ==== Sys2Proof/Laws/PerInstr.lean ====
section
/-! SUPPORT. One law of the syntax per instruction: the encoder's word selects the instruction's own row of the opcode
map (spec/30_encoding.md R64, R66), well-formed or not. -/

namespace Sys2Proof.Laws.EncodingRow

/-- `encode i AND mask = match` for the mask and match of `i`'s row. -/
def Statement (i : Instr) : Prop := selects (encode i) i.row = true

theorem of_and_eq {op : Word} {row : Word × Word} (h : op &&& row.2 = row.1) : selects op row = true := by
  simp [selects, h]

theorem cls : Statement .cls := of_and_eq rfl
theorem ret : Statement .ret := of_and_eq rfl
theorem jp (nnn : Addr12) : Statement (.jp nnn) := of_and_eq (packA_and_family _ nnn)
theorem call (nnn : Addr12) : Statement (.call nnn) := of_and_eq (packA_and_family _ nnn)
theorem seImm (x : Reg) (nn : Byte) : Statement (.seImm x nn) := of_and_eq (packI_and_family _ x nn)
theorem sneImm (x : Reg) (nn : Byte) : Statement (.sneImm x nn) := of_and_eq (packI_and_family _ x nn)
theorem seReg (x y : Reg) : Statement (.seReg x y) := of_and_eq (packR_and_subop _ x y _)
theorem ldImm (x : Reg) (nn : Byte) : Statement (.ldImm x nn) := of_and_eq (packI_and_family _ x nn)
theorem addImm (x : Reg) (nn : Byte) : Statement (.addImm x nn) := of_and_eq (packI_and_family _ x nn)
theorem ldReg (x y : Reg) : Statement (.ldReg x y) := of_and_eq (packR_and_subop _ x y _)
theorem orReg (x y : Reg) : Statement (.orReg x y) := of_and_eq (packR_and_subop _ x y _)
theorem andReg (x y : Reg) : Statement (.andReg x y) := of_and_eq (packR_and_subop _ x y _)
theorem xorReg (x y : Reg) : Statement (.xorReg x y) := of_and_eq (packR_and_subop _ x y _)
theorem addReg (x y : Reg) : Statement (.addReg x y) := of_and_eq (packR_and_subop _ x y _)
theorem subReg (x y : Reg) : Statement (.subReg x y) := of_and_eq (packR_and_subop _ x y _)
theorem shr (x y : Reg) : Statement (.shr x y) := of_and_eq (packR_and_subop _ x y _)
theorem subnReg (x y : Reg) : Statement (.subnReg x y) := of_and_eq (packR_and_subop _ x y _)
theorem shl (x y : Reg) : Statement (.shl x y) := of_and_eq (packR_and_subop _ x y _)
theorem sneReg (x y : Reg) : Statement (.sneReg x y) := of_and_eq (packR_and_subop _ x y _)
theorem ldI (nnn : Addr12) : Statement (.ldI nnn) := of_and_eq (packA_and_family _ nnn)
theorem jpV0 (nnn : Addr12) : Statement (.jpV0 nnn) := of_and_eq (packA_and_family _ nnn)
theorem rnd (x : Reg) (nn : Byte) : Statement (.rnd x nn) := of_and_eq (packI_and_family _ x nn)
theorem drw (x y : Reg) (n : Nat) : Statement (.drw x y n) := of_and_eq (packR_and_family _ x y _)
theorem skp (x : Reg) : Statement (.skp x) := of_and_eq (packI_and_subop _ x _)
theorem sknp (x : Reg) : Statement (.sknp x) := of_and_eq (packI_and_subop _ x _)
theorem ldVxDt (x : Reg) : Statement (.ldVxDt x) := of_and_eq (packI_and_subop _ x _)
theorem ldVxK (x : Reg) : Statement (.ldVxK x) := of_and_eq (packI_and_subop _ x _)
theorem ldDtVx (x : Reg) : Statement (.ldDtVx x) := of_and_eq (packI_and_subop _ x _)
theorem ldStVx (x : Reg) : Statement (.ldStVx x) := of_and_eq (packI_and_subop _ x _)
theorem addI (x : Reg) : Statement (.addI x) := of_and_eq (packI_and_subop _ x _)
theorem ldF (x : Reg) : Statement (.ldF x) := of_and_eq (packI_and_subop _ x _)
theorem ldB (x : Reg) : Statement (.ldB x) := of_and_eq (packI_and_subop _ x _)
theorem storeRegs (x : Reg) : Statement (.storeRegs x) := of_and_eq (packI_and_subop _ x _)
theorem loadRegs (x : Reg) : Statement (.loadRegs x) := of_and_eq (packI_and_subop _ x _)

end Sys2Proof.Laws.EncodingRow
end

