-- ==== Sys2Proof/Tests/Slice0.lean ====
section
/-! SUPPORT. The model's own tests: every constructor's decoding from a word written out from spec/30_encoding.md R66,
at most two small theorems per instruction with the expected results of spec/95_test_vectors.md (its vector in the
comment), the WellFormed smoke test, the other transactions, and a witness for the hypotheses of each statement. -/

namespace Sys2Proof.Tests

open Sys2Proof Sys2Proof.Machine

/-! ### Helpers -/

/-- The state an outcome commits. -/
def nextOf : Host.Outcome State Fault Refusal → Option State
  | .next t => some t
  | .fault _ => none
  | .refused _ => none

/-- The failure of an outcome. -/
def faultOf : Host.Outcome State Fault Refusal → Option Fault
  | .next _ => none
  | .fault f => some f
  | .refused _ => none

/-- Set some registers. -/
def withRegs (s : State) : List (Reg × Byte) → State
  | [] => s
  | (r, b) :: rest => withRegs (s.setReg r b) rest

/-- The reset state with some registers set and an index. -/
def start (regs : List (Reg × Byte)) (i : Word := 0) : State := (withRegs State.reset regs).setI i

/-- One step of an opcode placed at PC, seen through `f`. -/
def stepOf {α : Type} (s : State) (op : Word) (f : State → α) : Option α :=
  (nextOf (step (s.placeOpcode op))).map f

/-- The failure of one step of an opcode placed at PC. -/
def stepFault (s : State) (op : Word) : Option Fault := faultOf (step (s.placeOpcode op))

/-! ### Decoding, one word per constructor (R66) -/

theorem test_decode_families_0_to_4 :
    decode 0x00E0#16 = .ok .cls ∧ decode 0x00EE#16 = .ok .ret ∧ decode 0x1ABC#16 = .ok (.jp 0xABC#12) ∧
    decode 0x2300#16 = .ok (.call 0x300#12) ∧ decode 0x3A07#16 = .ok (.seImm 10 7#8) ∧
    decode 0x4B08#16 = .ok (.sneImm 11 8#8) := by decide

theorem test_decode_families_5_to_7_and_9 :
    decode 0x5120#16 = .ok (.seReg 1 2) ∧ decode 0x6005#16 = .ok (.ldImm 0 5#8) ∧
    decode 0x7302#16 = .ok (.addImm 3 2#8) ∧ decode 0x9120#16 = .ok (.sneReg 1 2) := by decide

theorem test_decode_family_8 :
    decode 0x8120#16 = .ok (.ldReg 1 2) ∧ decode 0x8121#16 = .ok (.orReg 1 2) ∧
    decode 0x8122#16 = .ok (.andReg 1 2) ∧ decode 0x8123#16 = .ok (.xorReg 1 2) ∧
    decode 0x8124#16 = .ok (.addReg 1 2) ∧ decode 0x8125#16 = .ok (.subReg 1 2) ∧
    decode 0x8456#16 = .ok (.shr 4 5) ∧ decode 0x8127#16 = .ok (.subnReg 1 2) ∧
    decode 0x845E#16 = .ok (.shl 4 5) := by decide

theorem test_decode_families_A_to_E :
    decode 0xA2F0#16 = .ok (.ldI 0x2F0#12) ∧ decode 0xB300#16 = .ok (.jpV0 0x300#12) ∧
    decode 0xC30F#16 = .ok (.rnd 3 0x0F#8) ∧ decode 0xD7A5#16 = .ok (.drw 7 10 5) ∧
    decode 0xE39E#16 = .ok (.skp 3) ∧ decode 0xE3A1#16 = .ok (.sknp 3) := by decide

theorem test_decode_family_F :
    decode 0xF407#16 = .ok (.ldVxDt 4) ∧ decode 0xF20A#16 = .ok (.ldVxK 2) ∧
    decode 0xF415#16 = .ok (.ldDtVx 4) ∧ decode 0xF118#16 = .ok (.ldStVx 1) ∧
    decode 0xF21E#16 = .ok (.addI 2) ∧ decode 0xF529#16 = .ok (.ldF 5) ∧
    decode 0xF033#16 = .ok (.ldB 0) ∧ decode 0xF155#16 = .ok (.storeRegs 1) ∧
    decode 0xF265#16 = .ok (.loadRegs 2) := by decide

theorem test_decode_unrecognized :
    decode 0x0000#16 = .error (.noRowInFamily0 0x000#12) ∧ decode 0x512F#16 = .error (.noRowInFamily5 15) ∧
    decode 0x8128#16 = .error (.noRowInFamily8 8) ∧ decode 0x9121#16 = .error (.noRowInFamily9 1) ∧
    decode 0xE39F#16 = .error (.noRowInFamilyE 0x9F#8) ∧ decode 0xF075#16 = .error (.noRowInFamilyF 0x75#8) := by
  decide

/-- The first byte is the high byte (B7, field extraction: D7 A5 is DRW, A5 D7 is LD I). -/
theorem test_bytes_are_big_endian :
    decodeBytes [0xD7#8, 0xA5#8, 0x00#8] = .ok (.drw 7 10 5, [0x00#8]) ∧
    decodeBytes [0xA5#8, 0xD7#8] = .ok (.ldI 0x5D7#12, []) ∧
    decodeBytes [0xD7#8] = .error .truncated ∧ decodeTableWord 16 0xF265 = some (.loadRegs 2) ∧
    decodeTableWord 16 0x5121 = none := by decide

/-- The opcode map's 34 rows are pairwise exclusive on the words that are their `match`es (R64). -/
theorem test_opcode_map_rows :
    opcodeMap.length = 34 ∧ opcodeMap.all (fun r => opcodeMap.filter (selects r.1) == [r]) = true := by decide

/-! ### WellFormed: the one check refuses its ill-formed term -/

theorem test_wellFormed_sprite_height :
    (Instr.drw 0 0 16).wellFormed = false ∧ (Instr.drw 15 15 15).wellFormed = true ∧
    Instr.cls.wellFormed = true := by decide

/-! ### Control transfer (B1) -/

/-- B1.1, B1.2. -/
theorem test_ret :
    stepOf { State.reset with pc := 0x300, sp := 2, stack := (State.reset.stack.set 0 0x202).set 1 0x456 } 0x00EE#16
      (fun t => (t.pc, t.sp, t.stack[1])) = some (0x456, 1, 0x456) ∧
    stepFault State.reset 0x00EE#16 = some .stackUnderflow := by decide

/-- B1.4. -/
theorem test_jp : stepOf State.reset 0x1FFF#16 (fun t => t.pc) = some 0xFFF := by decide

/-- B1.9, B1.10. -/
theorem test_call :
    stepOf { State.reset with pc := 0xFFE, sp := 15 } 0x2ABC#16 (fun t => (t.pc, t.sp, t.stack[15])) =
      some (0xABC, 16, 0x1000) ∧
    stepFault { State.reset with sp := 16 } 0x2ABC#16 = some .stackOverflow := by decide

/-- B1.11, B1.12. -/
theorem test_jpV0 :
    stepOf (start [(0, 0xFF)]) 0xBFFF#16 (fun t => t.pc) = some 0x10FE ∧
    stepOf (start [(0, 0x10), (2, 0x99)]) 0xB200#16 (fun t => t.pc) = some 0x210 := by decide

/-! ### Skips (B2) -/

/-- B2.1, B2.2, B2.4. -/
theorem test_seImm :
    stepOf (start [(10, 7)]) 0x3A07#16 (fun t => t.pc) = some 0x204 ∧
    stepOf (start [(10, 8)]) 0x3A07#16 (fun t => t.pc) = some 0x202 ∧
    stepOf { State.reset with pc := 0xFFE } 0x3000#16 (fun t => t.pc) = some 0x1002 := by decide

/-- B2.5, B2.6. -/
theorem test_sneImm :
    stepOf State.reset 0x4A00#16 (fun t => t.pc) = some 0x202 ∧
    stepOf (start [(10, 1)]) 0x4A00#16 (fun t => t.pc) = some 0x204 := by decide

/-- B2.7, B2.8. -/
theorem test_seReg :
    stepOf (start [(1, 0x33), (2, 0x33)]) 0x5120#16 (fun t => t.pc) = some 0x204 ∧
    stepOf (start [(1, 1), (2, 2)]) 0x5120#16 (fun t => t.pc) = some 0x202 := by decide

/-- B2.10, B2.12. -/
theorem test_sneReg :
    stepOf (start [(1, 1), (2, 2)]) 0x9120#16 (fun t => t.pc) = some 0x204 ∧
    stepOf (start [(10, 9)]) 0x9AA0#16 (fun t => t.pc) = some 0x202 := by decide

/-! ### Register loads and ALU (B3) -/

/-- B3.2. -/
theorem test_ldImm : stepOf State.reset 0x6FFF#16 (fun t => (t.reg 15, t.pc)) = some (0xFF, 0x202) := by decide

/-- B3.4, B3.6: VF is no flag here. -/
theorem test_addImm :
    stepOf (start [(3, 1), (15, 0x55)]) 0x73FF#16 (fun t => (t.reg 3, t.reg 15)) = some (0, 0x55) ∧
    stepOf (start [(15, 0xFF)]) 0x7F01#16 (fun t => t.reg 15) = some 0 := by decide

/-- B3.7. -/
theorem test_ldReg : stepOf (start [(2, 0x7E)]) 0x8120#16 (fun t => (t.reg 1, t.reg 2)) = some (0x7E, 0x7E) := by
  decide

/-- B3.9. -/
theorem test_orReg :
    stepOf (start [(1, 0x0F), (2, 0xF0), (15, 5)]) 0x8121#16 (fun t => (t.reg 1, t.reg 15)) = some (0xFF, 5) := by
  decide

/-- B3.10. -/
theorem test_andReg : stepOf (start [(1, 0x3C), (2, 0x0F)]) 0x8122#16 (fun t => t.reg 1) = some 0x0C := by decide

/-- B3.11, B3.12. -/
theorem test_xorReg :
    stepOf (start [(1, 0xFF), (2, 0x0F)]) 0x8123#16 (fun t => t.reg 1) = some 0xF0 ∧
    stepOf (start [(1, 0xAB)]) 0x8113#16 (fun t => t.reg 1) = some 0 := by decide

/-- B3.13, B3.16, B3.18. -/
theorem test_addReg :
    stepOf (start [(0, 0xFF), (1, 1)]) 0x8014#16 (fun t => (t.reg 0, t.reg 15)) = some (0, 1) ∧
    stepOf (start [(1, 0x20), (15, 0xF0)]) 0x8F14#16 (fun t => t.reg 15) = some 1 ∧
    stepOf (start [(1, 0xFF), (15, 1)]) 0x81F4#16 (fun t => (t.reg 1, t.reg 15)) = some (0, 1) := by decide

/-- B3.20, B3.22, B3.24. -/
theorem test_subReg :
    stepOf (start [(1, 0x10), (2, 0x20), (15, 1)]) 0x8125#16 (fun t => (t.reg 1, t.reg 15)) = some (0xF0, 0) ∧
    stepOf (start [(1, 0x33)]) 0x8115#16 (fun t => (t.reg 1, t.reg 15)) = some (0, 1) ∧
    stepOf (start [(1, 5), (15, 9)]) 0x8F15#16 (fun t => t.reg 15) = some 1 := by decide

/-- B3.28, B3.30. -/
theorem test_shr :
    stepOf (start [(4, 4), (5, 0xFF)]) 0x8456#16 (fun t => (t.reg 4, t.reg 5, t.reg 15)) = some (2, 0xFF, 0) ∧
    stepOf (start [(15, 7)]) 0x8F06#16 (fun t => t.reg 15) = some 3 := by decide

/-- B3.31, B3.32. -/
theorem test_subnReg :
    stepOf (start [(1, 0x10), (2, 0x20)]) 0x8127#16 (fun t => (t.reg 1, t.reg 15)) = some (0x10, 1) ∧
    stepOf (start [(1, 0x20), (2, 0x10), (15, 1)]) 0x8127#16 (fun t => (t.reg 1, t.reg 15)) = some (0xF0, 0) := by
  decide

/-- B3.35, B3.38. -/
theorem test_shl :
    stepOf (start [(4, 0x81)]) 0x840E#16 (fun t => (t.reg 4, t.reg 15)) = some (2, 1) ∧
    stepOf (start [(15, 0xC1)]) 0x8F0E#16 (fun t => t.reg 15) = some 0x82 := by decide

/-- B3.41, B3.42, with the random byte given. -/
theorem test_rnd_with :
    (rndWith 0xA7 3 0x0F State.reset).reg 3 = 0x07 ∧ (rndWith 0xFF 3 0x00 (start [(3, 9)])).reg 3 = 0 := by decide

/-- The step samples the next draw and moves on. -/
theorem test_rnd_step : stepOf State.reset 0xC30F#16 (fun t => (t.draws, t.pc)) = some (1, 0x202) := by decide

/-! ### Index, loads and stores (B4) -/

/-- B4.1. -/
theorem test_ldI : stepOf State.reset 0xAFFF#16 (fun t => (t.ireg, t.pc)) = some (0xFFF, 0x202) := by decide

/-- B4.4, B4.5, B4.6. -/
theorem test_addI :
    stepOf (start [(2, 0xFF)] 0xFF00) 0xF21E#16 (fun t => t.ireg) = some 0xFFFF ∧
    stepFault (start [(2, 0xFF)] 0xFF01) 0xF21E#16 = some .outOfBounds ∧
    stepOf (start [(15, 0xFF)] 0x10) 0xFF1E#16 (fun t => (t.ireg, t.reg 15)) = some (0x10F, 0xFF) := by decide

/-- B4.7, B4.9. -/
theorem test_ldF :
    stepOf (start [(5, 0x0A)]) 0xF529#16 (fun t => t.ireg) = some 0x32 ∧
    stepOf (start [(5, 0xFF)]) 0xF529#16 (fun t => t.ireg) = some 0x4FB := by decide

/-- B4.11, B4.12. -/
theorem test_ldB :
    stepOf (start [(0, 0xFF)] 0xFFD) 0xF033#16 (fun t => (t.byte 0xFFD, t.byte 0xFFE, t.byte 0xFFF, t.ireg)) =
      some (2, 5, 5, 0xFFD) ∧
    stepFault (start [(0, 7)] 0xFFE) 0xF033#16 = some .outOfBounds := by decide

/-- B4.14, B4.16. -/
theorem test_storeRegs :
    stepOf (start [(0, 0x11), (1, 0x22), (2, 0x33)] 0x400) 0xF155#16
      (fun t => (t.byte 0x400, t.byte 0x401, t.byte 0x402, t.ireg)) = some (0x11, 0x22, 0, 0x400) ∧
    stepFault (start [(15, 0xEE)] 0xFF1) 0xFF55#16 = some .outOfBounds := by decide

/-- B4.20, B4.21: the first glyph of the default font. -/
theorem test_loadRegs :
    stepOf (start [(4, 0x77)]) 0xF365#16 (fun t => (t.reg 0, t.reg 1, t.reg 3, t.reg 4)) =
      some (0xF0, 0x90, 0x90, 0x77) ∧
    stepFault (start [] 0x1000) 0xF065#16 = some .outOfBounds := by decide

/-! ### Display (B5) -/

/-- B5.13. -/
theorem test_cls :
    stepOf { start [(15, 1)] with fb := (State.reset.fb.set 1 2).set 31 (1#64 <<< 63) } 0x00E0#16
      (fun t => (t.pixel 1 1, t.pixel 63 31, t.dirty, t.reg 15)) = some (false, false, true, 1) := by decide

/-- B5.1: glyph 0 at (0, 0); B5.7, B5.10: the bounds. -/
theorem test_drw_glyph_and_bounds :
    stepOf State.reset 0xD015#16 (fun t => (t.fb.toList.take 6, t.reg 15, t.dirty)) =
      some ([0xF, 0x9, 0x9, 0x9, 0xF, 0], 0, true) ∧
    stepOf (start [(15, 1)] 0xFFFF) 0xD010#16 (fun t => (t.reg 15, t.dirty)) = some (0, true) ∧
    stepFault (start [] 0xFF2) 0xD01F#16 = some .outOfBounds := by decide

/-- B5.4 wraps to row 0, and bit 7 is the leftmost; B5.12 takes `px` from the old VF and collides. -/
theorem test_drw_wrap_and_collision :
    stepOf ((start [(0, 0), (1, 0x1F)] 0x300).storeBytes 0x300 [0x80, 0x01]) 0xD012#16
      (fun t => (t.pixel 0 31, t.pixel 7 0, t.pixel 7 31, t.pixel 0 0)) = some (true, true, false, false) ∧
    stepOf (({ start [(0, 2), (15, 3)] 0x300 with fb := State.reset.fb.set 2 8 }).storeBytes 0x300 [0x80]) 0xDF01#16
      (fun t => (t.pixel 3 2, t.reg 15)) = some (false, 1) := by decide

/-! ### Keypad and timers (B6) -/

/-- B6.1, B6.3, B6.6. -/
theorem test_skp :
    stepOf { start [(3, 10)] with key := State.reset.key.set 10 true } 0xE39E#16 (fun t => t.pc) = some 0x204 ∧
    stepOf { start [(3, 10)] with key := State.reset.key.set 3 true } 0xE39E#16 (fun t => t.pc) = some 0x202 ∧
    stepFault (start [(3, 0x10)]) 0xE39E#16 = some .invalidKeyIndex := by decide

/-- B6.4, B6.5, B6.7. -/
theorem test_sknp :
    stepOf { start [(3, 10)] with key := State.reset.key.set 10 true } 0xE3A1#16 (fun t => t.pc) = some 0x202 ∧
    stepOf (start [(3, 10)]) 0xE3A1#16 (fun t => t.pc) = some 0x204 ∧
    stepFault (start [(3, 0xFF)]) 0xE3A1#16 = some .invalidKeyIndex := by decide

/-- B6.9. -/
theorem test_ldVxDt :
    stepOf { State.reset with dt := 0x2A } 0xF407#16 (fun t => (t.reg 4, t.dt)) = some (0x2A, 0x2A) := by decide

/-- B6.10, B6.12. -/
theorem test_ldVxK :
    step (State.reset.placeOpcode 0xF20A#16) = .next (State.reset.placeOpcode 0xF20A#16) ∧
    stepOf { State.reset with key := (State.reset.key.set 3 true).set 12 true } 0xF20A#16
      (fun t => (t.reg 2, t.pc)) = some (3, 0x202) := ⟨rfl, by decide⟩

/-- B6.14. -/
theorem test_ldDtVx : stepOf (start [(4, 0x3C)]) 0xF415#16 (fun t => (t.dt, t.st)) = some (0x3C, 0) := by decide

/-- B6.16, B6.17: the beep events of the step. -/
theorem test_ldStVx :
    (perform .step ((start [(1, 0x1E)]).placeOpcode 0xF118#16)).event = some .startBeep ∧
    (perform .step (({ State.reset with st := 5 }).placeOpcode 0xF118#16)).event = some .stopBeep ∧
    stepOf (start [(1, 0x1E)]) 0xF118#16 (fun t => (t.st, t.beep)) = some (0x1E, true) := by decide

/-! ### Fetch, priority, other transactions (B7, B8) -/

/-- B7.1, B7.4, B7.5, B7.12. -/
theorem test_fetch :
    faultOf (step { State.reset with pc := 0xFFF }) = some .outOfBounds ∧
    stepOf { State.reset with pc := 0x201 } 0x6105#16 (fun t => (t.reg 1, t.pc)) = some (5, 0x203) ∧
    faultOf (step State.reset) = some .invalidOpcode := by decide

/-- B8.4, B8.2. -/
theorem test_tick_timers :
    (perform .tickTimers { State.reset with st := 1, dt := 2 }).event = some .stopBeep ∧
    (perform .tickTimers { State.reset with st := 1, dt := 2 }).state = { State.reset with st := 0, dt := 1 } ∧
    perform .tickTimers State.reset = { state := State.reset, status := .ok, event := none } := by decide

/-- B8.8, B8.10, B8.11. -/
theorem test_set_key :
    (perform (.setKey 15 false) { State.reset with key := State.reset.key.set 15 true }).state = State.reset ∧
    (perform (.setKey 16 true) State.reset).status = .failed .invalidKeyIndex ∧
    (perform (.setKey (-1) false) State.reset).status = .failed .invalidKeyIndex := by decide

/-- B8.13; B8.15 by its length. -/
theorem test_load :
    (perform (.load [0x12, 0x00]) State.reset).state.mem = [(0x200, 0x12)] ∧
    (perform (.load (List.replicate 3585 0)) State.reset).status = .failed .romTooLarge := by
  have h : loadRom (List.replicate 3585 0) State.reset = raise .romTooLarge :=
    if_pos (by rw [List.length_replicate]; decide)
  refine ⟨by decide, ?_⟩
  rw [perform, transact, h, raise]

/-- B8.16, B8.17. -/
theorem test_reset_and_ack_dirty :
    (perform .reset (start [(4, 9)] 0x300)).state = State.reset ∧
    (perform .ackDirty { State.reset with dirty := true }).state = State.reset := by decide

/-- R22's table: glyph A at 0x032 and glyph F at 0x04B, and nothing after the font. -/
theorem test_font :
    State.reset.loadBytes 0x032 5 = [0xF0, 0x90, 0xF0, 0x90, 0x90] ∧
    State.reset.loadBytes 0x04B 6 = [0xF0, 0x80, 0xF0, 0x80, 0x80, 0x00] ∧ font.length = 80 := by decide

/-- R160's codes. -/
theorem test_codes :
    [Fault.outOfBounds, .stackOverflow, .stackUnderflow, .invalidOpcode, .invalidKeyIndex, .romTooLarge].map
      Fault.code = [1, 2, 3, 4, 5, 6] := by decide

/-- R205: a jump to itself ends the run, one elsewhere does not. -/
theorem test_self_jump :
    (State.reset.placeOpcode 0x1200#16).selfJump = true ∧ (State.reset.placeOpcode 0x1202#16).selfJump = false := by
  decide

/-! ### Witnesses: concrete states and operands that meet each statement's hypotheses -/

/-- A state used below: Fx55 at 0x200 with I just after it. -/
def storing : State := (start [(0, 0x12), (1, 0x08)] 0x202).placeOpcode 0xF155#16

theorem witness_EncodedInstructionsDecodeBack : (Instr.drw 1 2 15).wellFormed = true := by decide

theorem witness_DecodedOpcodesEncodeBack : decode 0x8AB6#16 = .ok (.shr 10 11) := by decide

theorem witness_DecodeSelectsTheMatchingRow :
    decode 0xF265#16 = .ok (.loadRegs 2) ∧ (0xF065#16, 0xF0FF#16) ∈ opcodeMap ∧
    selects 0xF265#16 (0xF065#16, 0xF0FF#16) = true ∧ (∀ row ∈ opcodeMap, selects 0x5AB1#16 row = false) := by
  refine ⟨by decide, by simp [opcodeMap], by decide, fun row h => ?_⟩
  have := List.all_eq_true.1 (show opcodeMap.all (fun r => !selects 0x5AB1#16 r) = true by decide) row h
  simpa using this

theorem witness_UnrecognizedOpcodesFailTheStep :
    State.reset.fetch? = some 0x0000#16 ∧ decode 0x0000#16 = .error (.noRowInFamily0 0#12) := by decide

theorem witness_StepRunsTheInstructionAtPc :
    ({ State.reset with pc := 0xFFF }).pc.toNat + 1 > 0xFFF ∧
    (({ State.reset with pc := 0xFFE }).placeOpcode 0x6005#16).pc.toNat + 1 ≤ 0xFFF ∧
    (0x6005#16).toNat = ((({ State.reset with pc := 0xFFE }).placeOpcode 0x6005#16).byte 0xFFE).toNat * 256 +
      ((({ State.reset with pc := 0xFFE }).placeOpcode 0x6005#16).byte 0xFFF).toNat ∧
    decode 0x6005#16 = .ok (.ldImm 0 5#8) := by decide

theorem witness_PlacedOpcodeRunsNext :
    State.reset.mem.wf ∧ State.reset.pc.toNat + 1 ≤ 0xFFF ∧
    decodeTableWord 16 0xF265 = some (.loadRegs 2) := by decide

theorem witness_CallPushesTheReturnAddress :
    ({ State.reset with sp := 15 }).sp.val < 16 ∧ ({ State.reset with sp := 16 }).sp.val = 16 := by decide

theorem witness_ReturnPopsTheTopEntry :
    ({ State.reset with sp := 16 }).sp.val ≠ 0 ∧ State.reset.sp.val = 0 := by decide

theorem witness_ReturnComesBackAfterTheCall :
    ∃ t, exec (.call 0xFFF#12) { State.reset with sp := 15 } = .next t ∧ (t.setDt 7).stack = t.stack ∧
      (t.setDt 7).sp = t.sp := ⟨_, rfl, rfl, rfl⟩

theorem witness_AddRegistersSetsTheCarry : (0 : Reg) ≠ 15 := by decide

theorem witness_SubtractSetsNotBorrow : (14 : Reg) ≠ 15 := by decide

theorem witness_ShiftsDropOneBitIntoVf : (4 : Reg) ≠ 15 := by decide

theorem witness_AddToIndexKeepsSixteenBits :
    (start [(2, 0xFF)] 0xFF00).ireg.toNat + ((start [(2, 0xFF)] 0xFF00).reg 2).toNat ≤ 0xFFFF ∧
    (start [(2, 0xFF)] 0xFF01).ireg.toNat + ((start [(2, 0xFF)] 0xFF01).reg 2).toNat > 0xFFFF := by decide

theorem witness_DecimalDigitsAreStoredAtI :
    (start [] 0xFFD).mem.wf ∧ (start [] 0xFFD).ireg.toNat + 2 ≤ 0xFFF ∧
    (start [] 0xFFE).ireg.toNat + 2 > 0xFFF := by decide

theorem witness_RegistersAreStoredFromI :
    (start [] 0xFF0).mem.wf ∧ (start [] 0xFF0).ireg.toNat + (15 : Reg).val ≤ 0xFFF ∧
    (start [] 0xFF1).ireg.toNat + (15 : Reg).val > 0xFFF := by decide

theorem witness_RegistersAreLoadedFromI :
    (start [] 0xFFF).ireg.toNat + (0 : Reg).val ≤ 0xFFF ∧ (start [] 0xFFF).ireg.toNat + (1 : Reg).val > 0xFFF := by
  decide

theorem witness_StoredRegistersLoadBack :
    storing.mem.wf ∧ ∃ t, exec (.storeRegs 1) storing = .next t ∧ (t.setReg 0 9).mem = t.mem ∧
      (t.setReg 0 9).ireg = t.ireg := ⟨by decide, _, rfl, rfl, rfl⟩

/-- The next fetch takes both bytes, the first only, or the second only, of a store; and of a load that ends at PC. -/
theorem witness_StoredOpcodeIsFetchedNext :
    (storing.mem.wf ∧ ∃ t, exec (.storeRegs 1) storing = .next t ∧ t.pc.toNat + 1 ≤ 0xFFF ∧ t.fetch? = some 0x1208#16) ∧
    (∃ t, exec (.storeRegs 0) storing = .next t ∧ t.fetch? = some 0x1200#16) ∧
    (∃ t, exec (.ldB 1) (storing.setI 0x201) = .next t ∧ t.pc.toNat + 1 ≤ 0xFFF ∧ t.fetch? = some 0x0008#16) ∧
    (∃ t, exec (.ldB 2) ((storing.setReg 2 0xFF).setI 0x203) = .next t ∧ t.fetch? = some 0x0002#16) ∧
    (perform (.load [0x61]) storing).state.pc.toNat + 1 ≤ 0xFFF ∧
    (perform (.load [0x61]) storing).state.fetch? = some 0x6155#16 :=
  ⟨⟨by decide, _, rfl, by decide, by decide⟩, ⟨_, rfl, by decide⟩, ⟨_, rfl, by decide, by decide⟩,
    ⟨_, rfl, by decide⟩, by decide, by decide⟩

theorem witness_DrawTogglesTheSpriteCells_ranges :
    ((0 : Nat) ≤ 15 ∧ (0 : Nat) = 0) ∧ (start [] 0xFF1).ireg.toNat + 15 - 1 ≤ 0xFFF ∧
    (1 ≤ 15 ∧ (start [] 0xFF2).ireg.toNat + 15 - 1 > 0xFFF) := by decide

/-- A sprite bit on the lit cell (3, 2), and no sprite bit anywhere for the empty sprite. -/
theorem witness_DrawTogglesTheSpriteCells_cells :
    (SpriteOn State.reset 0 1 5 0 0 ∧ ({ State.reset with fb := State.reset.fb.set 0 1 }).pixel 0 0 = true) ∧
    ¬ SpriteOn State.reset 0 1 0 0 0 :=
  ⟨⟨⟨0, by decide, 0, by decide, by decide, by decide, by decide⟩, by decide⟩,
    fun ⟨_, hr, _⟩ => absurd hr (Nat.not_lt_zero _)⟩

theorem witness_DrawingTwiceRestoresTheScreen :
    (0 : Reg) ≠ 15 ∧ (1 : Reg) ≠ 15 ∧ (5 : Nat) ≤ 15 ∧ ∃ t, exec (.drw 0 1 5) State.reset = .next t :=
  ⟨by decide, by decide, by decide, _, rfl⟩

theorem witness_KeySkipsTestTheKeyVxNames :
    ((start [(3, 15)]).reg 3).toNat = (15 : Fin 16).val ∧ ((start [(3, 16)]).reg 3).toNat > 15 := by decide

theorem witness_SoundTimerIsSetAndBeepEdgesFire :
    ((start [(1, 1)]).st = 0#8 ∧ (start [(1, 1)]).reg 1 ≠ 0#8) ∧
    (({ State.reset with st := 1 }).st ≠ 0#8 ∧ ({ State.reset with st := 1 }).reg 1 = 0#8) ∧
    (State.reset.st = 0#8 ↔ State.reset.reg 1 = 0#8) := by decide

theorem witness_WaitForKeyTakesTheLowestPressed :
    (∀ k : Fin 16, State.reset.key[k] = false) ∧
    ({ State.reset with key := State.reset.key.set 15 true }).key[(15 : Fin 16)] = true ∧
    (∀ j : Fin 16, j < 15 → ({ State.reset with key := State.reset.key.set 15 true }).key[j] = false) := by decide

theorem witness_WaitingStepsChangeNothing : (State.reset.placeOpcode 0xF20A#16).waiting = true := by decide

theorem witness_SelfJumpRepeatsForever : (State.reset.placeOpcode 0x1200#16).selfJump = true := by decide

theorem witness_TickCountsBothTimersDown :
    ({ State.reset with st := 1 }).st = 1#8 ∧ ({ State.reset with st := 2 }).st ≠ 1#8 := by decide

theorem witness_SetKeyWritesOneKey :
    (15 : Int) = ((15 : Fin 16).val : Int) ∧ ((-1 : Int) < 0 ∨ (-1 : Int) > 15) ∧ ((16 : Int) < 0 ∨ (16 : Int) > 15) := by
  decide

theorem witness_LoadCopiesTheRomTo0x200 :
    State.reset.mem.wf ∧ (List.replicate 3584 (0xAB : Byte)).length ≤ 3584 ∧
    (List.replicate 3585 (0xAB : Byte)).length > 3584 :=
  ⟨by decide, by rw [List.length_replicate], by rw [List.length_replicate]; decide⟩

theorem witness_FailedTransactionsChangeNothing :
    transactionFailure .step State.reset = some .invalidOpcode ∧
    transactionFailure .step { State.reset with pc := 0xFFF } = some .outOfBounds ∧
    transactionFailure .step (State.reset.placeOpcode 0x00EE#16) = some .stackUnderflow ∧
    transactionFailure .step (State.reset.placeOpcode 0xF20A#16) = none ∧
    transactionFailure (.setKey 16 true) State.reset = some .invalidKeyIndex ∧
    transactionFailure (.setKey (-1) true) State.reset = some .invalidKeyIndex ∧
    transactionFailure (.setKey 15 true) State.reset = none ∧ transactionFailure (.load []) State.reset = none ∧
    transactionFailure (.load (List.replicate 3585 0)) State.reset = some .romTooLarge :=
  ⟨by decide, by decide, by decide, by decide, by decide, by decide, by decide, by decide,
    by rw [transactionFailure, List.length_replicate]; rfl⟩

/-- A key skip on a value that names no key, and a schedule with a step, a tick, a key change and an acknowledgement. -/
theorem witness_FailedStepFailsUntilLoadOrReset :
    step ((start [(3, 16)]).placeOpcode 0xE39E#16) = .fault .invalidKeyIndex ∧
    ∀ t ∈ [Transaction.step, .tickTimers, .setKey 3 true, .ackDirty], t ≠ .reset ∧ ∀ rom, t ≠ .load rom :=
  ⟨rfl, by simp⟩

theorem witness_InstructionsFailExactlyAsListed :
    failureOf .ret State.reset = some .stackUnderflow ∧ failureOf .cls State.reset = none := by decide

theorem witness_NextPcFollowsItsClass :
    (∃ t, exec (.seImm 0 0#8) State.reset = .next t) ∧
    (perform .step State.reset).status = .failed .invalidOpcode := ⟨⟨_, rfl⟩, by decide⟩

theorem witness_InstructionsChangeOnlyTheirParts :
    ∃ t, exec (.storeRegs 15) (start [] 0xFF0) = .next t := ⟨_, rfl⟩

theorem witness_OnlyFlagWritersTouchVf :
    (∃ t, exec (.addReg 0 1) State.reset = .next t) ∧ destination? (.addReg 0 1) ≠ some 15 ∧
    writesFlag (.addReg 0 1) = true ∧ (∃ t, exec (.addI 15) State.reset = .next t) ∧
    destination? (.addI 15) ≠ some 15 ∧ writesFlag (.addI 15) = false :=
  ⟨⟨_, rfl⟩, by decide, by decide, ⟨_, rfl⟩, by decide, by decide⟩

theorem witness_InputsReachOnlyTheirReaders :
    (∀ x nn, Instr.ldStVx 1 ≠ .rnd x nn) ∧ readsKeys (.ldStVx 1) = false ∧ (∀ x, Instr.cls ≠ .ldStVx x) ∧
    (∃ x, Instr.ldStVx 1 = .ldStVx x) ∧ Instr.ldStVx 1 ≠ .cls ∧ (∀ x y n, Instr.ldStVx 1 ≠ .drw x y n) := by
  refine ⟨by simp, by decide, by simp, ⟨1, rfl⟩, by simp, by simp⟩

theorem witness_StepKeepsTheInvariant :
    (State.reset.placeOpcode 0x2ABC#16).Inv ∧ ∃ t, step (State.reset.placeOpcode 0x2ABC#16) = .next t :=
  ⟨⟨by decide, by decide, by decide⟩, _, rfl⟩

theorem witness_EveryScheduleKeepsTheInvariant : ({ State.reset with pc := 0x10FE }).Inv :=
  ⟨by decide, by decide, by decide⟩

end Sys2Proof.Tests
end

/-! SUPPORT. What an instruction that commits has done, for the shapes an arm of `exec` can have: one inversion lemma
each for a plain commit, a range check, and every meaning that asks the state before it commits. -/

namespace Sys2Proof.Machine

variable {s t u : State}

theorem eq_of_commit_eq_next (h : commit u = .next t) : t = u :=
  (Host.Outcome.next.inj h).symm

/-- A checked access commits only inside the address space, and then as it would unchecked. -/
theorem withRange_eq_next {base n : Nat} {go : Host.Outcome State Fault Refusal} (h : withRange base n go = .next t) :
    (n = 0 ∨ base + n ≤ 4096) ∧ go = .next t := by
  unfold withRange at h
  split at h
  · exact ⟨(rangeOk_iff base n).1 ‹_›, h⟩
  · cases h

/-- 00EE commits with the popped entry in PC (R90). -/
theorem execRet_eq_next (h : execRet s = .next t) : ∃ w u, s.pop? = some (w, u) ∧ t = u.setPc w := by
  unfold execRet at h
  split at h
  · exact ⟨_, _, ‹_›, eq_of_commit_eq_next h⟩
  · cases h

/-- 2nnn commits with `PC + 2` pushed and `nnn` in PC (R92). -/
theorem execCall_eq_next {nnn : Addr12} (h : execCall nnn s = .next t) :
    ∃ u, s.push? (s.pc + 2#16) = some u ∧ t = u.setPc (zextAddr nnn) := by
  unfold execCall at h
  split at h
  · exact ⟨_, ‹_›, eq_of_commit_eq_next h⟩
  · cases h

/-- Ex9E commits with a skip if the key that `V[x]` names is pressed (R150). -/
theorem execSkp_eq_next {x : Reg} (h : execSkp x s = .next t) :
    ∃ pressed, s.key? (s.reg x).toNat = some pressed ∧ t = s.skipIf pressed := by
  unfold execSkp at h
  split at h
  · exact ⟨_, ‹_›, eq_of_commit_eq_next h⟩
  · cases h

/-- ExA1 commits with a skip if the key that `V[x]` names is not pressed (R151). -/
theorem execSknp_eq_next {x : Reg} (h : execSknp x s = .next t) :
    ∃ pressed, s.key? (s.reg x).toNat = some pressed ∧ t = s.skipIf (!pressed) := by
  unfold execSknp at h
  split at h
  · exact ⟨_, ‹_›, eq_of_commit_eq_next h⟩
  · cases h

/-- Fx0A waits in the very same state while no key is pressed, and otherwise takes the lowest one (R153). -/
theorem execLdVxK_eq_next {x : Reg} (h : execLdVxK x s = .next t) :
    (s.lowestKey? = none ∧ t = s) ∨
    ∃ k, s.lowestKey? = some k ∧ t = (s.setReg x (BitVec.ofNat 8 k)).advance := by
  unfold execLdVxK at h
  split at h
  · exact .inr ⟨_, ‹_›, eq_of_commit_eq_next h⟩
  · exact .inl ⟨‹_›, eq_of_commit_eq_next h⟩

/-- Fx1E commits only with a sum that fits sixteen bits (R131). -/
theorem execAddI_eq_next {x : Reg} (h : execAddI x s = .next t) :
    s.ireg.toNat + (s.reg x).toNat ≤ 0xFFFF ∧
    t = (s.setI (BitVec.ofNat 16 (s.ireg.toNat + (s.reg x).toNat))).advance := by
  unfold execAddI at h
  split at h
  · cases h
  · exact ⟨by omega, eq_of_commit_eq_next h⟩

end Sys2Proof.Machine

/-! SUPPORT. The invariant, one rule per operation on the state that touches memory, PC or the stack, then per
instruction, then for the step. -/

namespace Sys2Proof.Machine

variable {s t u : State}

/-! ### Operations -/

/-- The invariant speaks of memory, PC, the stack and SP alone. -/
theorem State.Inv.congr (hi : s.Inv) (hmem : u.mem = s.mem) (hpc : u.pc = s.pc) (hstack : u.stack = s.stack)
    (hsp : u.sp = s.sp) : u.Inv where
  memory := hmem ▸ hi.memory
  pc := hpc ▸ hi.pc
  stack k hk := by rw [hstack]; exact hi.stack k (hsp ▸ hk)

theorem State.Inv.setPc {w : Word} (hi : s.Inv) (hw : w.toNat ≤ 0x10FE) : (s.setPc w).Inv :=
  ⟨hi.memory, hw, hi.stack⟩

/-- From an address that could be fetched from, `PC + 2` does not wrap. -/
theorem toNat_add_two {w : Word} (hw : w.toNat ≤ 0xFFE) : (w + 2#16).toNat ≤ 0x1000 := by
  bv_omega

theorem State.Inv.advance (hi : s.Inv) (hpc : s.pc.toNat ≤ 0xFFE) : s.advance.Inv :=
  hi.setPc ((toNat_add_two hpc).trans (by decide))

theorem State.Inv.skip (hi : s.Inv) (hpc : s.pc.toNat ≤ 0xFFE) : s.skip.Inv :=
  hi.setPc (by bv_omega)

theorem State.Inv.skipIf (hi : s.Inv) (hpc : s.pc.toNat ≤ 0xFFE) (c : Bool) : (s.skipIf c).Inv := by
  cases c
  · exact hi.advance hpc
  · exact hi.skip hpc

theorem State.Inv.storeBytes {base : Nat} {bs : List Byte} (hi : s.Inv) (hb : base + bs.length ≤ Config.memSize) :
    (s.storeBytes base bs).Inv :=
  ⟨s.wf_storeBytes hi.memory hb, hi.pc, hi.stack⟩

/-- A push of a return address in range: the entries below it are the old ones. -/
theorem State.Inv.push? {w : Word} (hi : s.Inv) (hw : w.toNat ≤ 0x1000) (h : s.push? w = some u) : u.Inv := by
  obtain ⟨hs, hsp, hu⟩ := State.push?_eq_some h
  rw [hu]
  refine ⟨hi.memory, hi.pc, fun k hk => ?_⟩
  simp only [Fin.getElem_fin, Vector.getElem_set]
  split
  · exact hw
  · exact hi.stack k (by simp only at hk; omega)

/-- A pop leaves fewer entries in use, and the one it takes was in use. -/
theorem State.Inv.pop? {w : Word} (hi : s.Inv) (h : s.pop? = some (w, u)) : u.Inv ∧ w.toNat ≤ 0x1000 := by
  obtain ⟨hs, rfl, hsp, hu⟩ := State.pop?_eq_some h
  rw [hu]
  refine ⟨⟨hi.memory, hi.pc, fun k hk => hi.stack k (by simp only at hk; omega)⟩, ?_⟩
  exact hi.stack ⟨s.sp.val - 1, by omega⟩ (by simp only; omega)

/-! ### Jump targets -/

/-- An address immediate is below 0x1000. -/
theorem toNat_zextAddr (nnn : Addr12) : (zextAddr nnn).toNat = nnn.toNat := by
  simp only [zextAddr]
  bv_omega

/-- The farthest target of Bnnn is 0xFFF + 0xFF (R93). -/
theorem toNat_offsetTarget_le (nnn : Addr12) (b : Byte) : (zextAddr nnn + zextByte b).toNat ≤ 0x10FE := by
  simp only [zextAddr, zextByte]
  bv_omega

/-! ### Instructions -/

/-- The default class of R85: memory, PC and stack as before, then `PC + 2`. -/
theorem commit_advance_keeps_inv (h : commit u.advance = .next t) (hi : s.Inv) (hpc : s.pc.toNat ≤ 0xFFE)
    (hmem : u.mem = s.mem) (hupc : u.pc = s.pc) (hstack : u.stack = s.stack) (hsp : u.sp = s.sp) : t.Inv := by
  rw [eq_of_commit_eq_next h]
  exact (hi.congr hmem hupc hstack hsp).advance (hupc ▸ hpc)

theorem commit_skipIf_keeps_inv {c : Bool} (h : commit (s.skipIf c) = .next t) (hi : s.Inv)
    (hpc : s.pc.toNat ≤ 0xFFE) : t.Inv := by
  rw [eq_of_commit_eq_next h]
  exact hi.skipIf hpc c

/-- A store of bytes that were checked to fit, then `PC + 2` (Fx33, Fx55). -/
theorem storeBytes_keeps_inv {n : Nat} {bs : List Byte}
    (h : withRange s.base n (commit (s.storeBytes s.base bs).advance) = .next t) (hi : s.Inv)
    (hpc : s.pc.toNat ≤ 0xFFE) (hn : n ≠ 0) (hlen : bs.length = n) : t.Inv := by
  obtain ⟨hrange, h⟩ := withRange_eq_next h
  rw [eq_of_commit_eq_next h]
  exact (hi.storeBytes (hlen ▸ hrange.resolve_left hn)).advance hpc

theorem execRet_keeps_inv (h : execRet s = .next t) (hi : s.Inv) : t.Inv := by
  obtain ⟨w, u, hpop, rfl⟩ := execRet_eq_next h
  obtain ⟨hu, hw⟩ := hi.pop? hpop
  exact hu.setPc (hw.trans (by decide))

theorem execCall_keeps_inv {nnn : Addr12} (h : execCall nnn s = .next t) (hi : s.Inv) (hpc : s.pc.toNat ≤ 0xFFE) :
    t.Inv := by
  obtain ⟨u, hpush, rfl⟩ := execCall_eq_next h
  have hnnn := toNat_zextAddr nnn
  exact (hi.push? (toNat_add_two hpc) hpush).setPc (by omega)

/-- Every instruction that commits at an address it could be fetched from keeps the invariant, by R85's classes. -/
theorem exec_keeps_inv {i : Instr} (h : exec i s = .next t) (hi : s.Inv) (hpc : s.pc.toNat ≤ 0xFFE) : t.Inv := by
  cases i with
  | cls | ldImm | addImm | ldReg | orReg | andReg | xorReg | addReg | subReg | shr | subnReg | shl | ldI | rnd
  | ldVxDt | ldDtVx | ldStVx | ldF => exact commit_advance_keeps_inv h hi hpc rfl rfl rfl rfl
  | drw | loadRegs => exact commit_advance_keeps_inv (withRange_eq_next h).2 hi hpc rfl rfl rfl rfl
  | addI =>
    obtain ⟨-, rfl⟩ := execAddI_eq_next h
    exact commit_advance_keeps_inv rfl hi hpc rfl rfl rfl rfl
  | ldVxK =>
    obtain ⟨-, rfl⟩ | ⟨k, -, rfl⟩ := execLdVxK_eq_next h
    · exact hi
    · exact commit_advance_keeps_inv rfl hi hpc rfl rfl rfl rfl
  | seImm | sneImm | seReg | sneReg => exact commit_skipIf_keeps_inv h hi hpc
  | skp =>
    obtain ⟨pressed, -, rfl⟩ := execSkp_eq_next h
    exact hi.skipIf hpc pressed
  | sknp =>
    obtain ⟨pressed, -, rfl⟩ := execSknp_eq_next h
    exact hi.skipIf hpc (!pressed)
  | jp nnn =>
    rw [eq_of_commit_eq_next h]
    have hnnn := toNat_zextAddr nnn
    exact hi.setPc (by omega)
  | jpV0 nnn =>
    rw [eq_of_commit_eq_next h]
    exact hi.setPc (toNat_offsetTarget_le nnn _)
  | call => exact execCall_keeps_inv h hi hpc
  | ret => exact execRet_keeps_inv h hi
  | ldB => exact storeBytes_keeps_inv h hi hpc (by decide) rfl
  | storeRegs x => exact storeBytes_keeps_inv h hi hpc x.val.succ_ne_zero (s.length_regList x.isLt)

/-- Settles O54: a step executes only after a fetch, so at a PC of at most 0xFFE, and there every instruction keeps
the invariant. -/
theorem stepKeepsTheInvariant : Obligations.StepKeepsTheInvariant := by
  intro s t hi h
  obtain ⟨hpc, op, i, -, -, hexec⟩ := step_eq_next h
  exact exec_keeps_inv hexec hi (by omega)

end Sys2Proof.Machine

/-! SUPPORT. What instructions leave in VF (spec/10_state.md R11). -/

namespace Sys2Proof.Machine

variable {s t u : State}

theorem flagByte_eq_zero_or_one (c : Bool) : flagByte c = 0#8 ∨ flagByte c = 1#8 := by
  cases c
  · exact .inl rfl
  · exact .inr rfl

/-- An instruction that does not name VF as its destination names another register or none. -/
theorem ne_vf_of_destination {i : Instr} {x : Reg} (hd : destination? i ≠ some 15) (hx : destination? i = some x) :
    x ≠ 15 :=
  fun h => hd (h ▸ hx)

/-- A write to a register other than VF leaves VF alone. -/
theorem State.reg_vf_setReg {x : Reg} (hx : x ≠ 15) (b : Byte) :
    (s.setReg x b).reg 15 = s.reg 15 := by
  rw [State.reg_setReg, if_neg hx.symm]

/-- A load of V0 to Vx with `x` below 15 leaves VF alone. -/
theorem State.reg_vf_setRegList {x : Reg} {bs : List Byte} (hx : x ≠ 15)
    (hlen : bs.length = x.val + 1) : (s.setRegList bs).reg 15 = s.reg 15 := by
  have hne : x.val ≠ 15 := fun h => hx (Fin.ext h)
  rw [State.reg_setRegList, List.getD_eq_default]
  change bs.length ≤ 15
  omega

/-- VF written last, as a flag, is 0 or 1. -/
theorem vf_of_commit_flag {c : Bool} (h : commit (u.setReg .vf (flagByte c)).advance = .next t) :
    t.reg 15 = 0#8 ∨ t.reg 15 = 1#8 := by
  rw [eq_of_commit_eq_next h, State.reg_advance, State.reg_setReg_same]
  exact flagByte_eq_zero_or_one c

/-- The shifts write the flag first and the shifted value, to another register, after it. -/
theorem vf_of_commit_flag_setReg {c : Bool} {x : Reg} {b : Byte} (hx : x ≠ 15)
    (h : commit ((s.setReg .vf (flagByte c)).setReg x b).advance = .next t) : t.reg 15 = 0#8 ∨ t.reg 15 = 1#8 := by
  rw [eq_of_commit_eq_next h, State.reg_advance, State.reg_vf_setReg hx, State.reg_setReg_same]
  exact flagByte_eq_zero_or_one c

/-- One register other than VF written, then `PC + 2`. -/
theorem vf_of_commit_setReg {x : Reg} {b : Byte} (hx : x ≠ 15)
    (h : commit (s.setReg x b).advance = .next t) : t.reg 15 = s.reg 15 := by
  rw [eq_of_commit_eq_next h, State.reg_advance, State.reg_vf_setReg hx]

theorem vf_of_commit (h : commit u = .next t) (hv : u.v = s.v) : t.reg 15 = s.reg 15 := by
  rw [eq_of_commit_eq_next h]
  exact State.reg_congr hv 15

/-- A flag writer leaves 0 or 1 in VF unless VF is its destination; an instruction that is none leaves VF alone unless
VF is its destination (R11). -/
theorem exec_vf {i : Instr} (h : exec i s = .next t) (hd : destination? i ≠ some 15) :
    (writesFlag i = true → t.reg 15 = 0#8 ∨ t.reg 15 = 1#8) ∧
    (writesFlag i = false → t.reg 15 = s.reg 15) := by
  cases i with
  | addReg | subReg | subnReg => exact ⟨fun _ => vf_of_commit_flag h, nofun⟩
  | drw => exact ⟨fun _ => vf_of_commit_flag (withRange_eq_next h).2, nofun⟩
  | shr | shl => exact ⟨fun _ => vf_of_commit_flag_setReg (ne_vf_of_destination hd rfl) h, nofun⟩
  | ldImm | addImm | ldReg | orReg | andReg | xorReg | ldVxDt =>
    exact ⟨nofun, fun _ => vf_of_commit_setReg (ne_vf_of_destination hd rfl) h⟩
  | rnd x nn =>
    refine ⟨nofun, fun _ => ?_⟩
    rw [eq_of_commit_eq_next h, rndWith, State.reg_advance, State.reg_nextDraw,
      State.reg_vf_setReg (ne_vf_of_destination hd rfl)]
  | ldVxK =>
    refine ⟨nofun, fun _ => ?_⟩
    obtain ⟨-, rfl⟩ | ⟨k, -, rfl⟩ := execLdVxK_eq_next h
    · rfl
    · exact vf_of_commit_setReg (ne_vf_of_destination hd rfl) rfl
  | loadRegs x =>
    refine ⟨nofun, fun _ => ?_⟩
    rw [eq_of_commit_eq_next (withRange_eq_next h).2, State.reg_advance]
    exact State.reg_vf_setRegList (ne_vf_of_destination hd rfl) (Memory.length_readList _ _ _)
  | cls | jp | ldI | jpV0 | ldDtVx | ldStVx | ldF => exact ⟨nofun, fun _ => vf_of_commit h rfl⟩
  | ldB | storeRegs => exact ⟨nofun, fun _ => vf_of_commit (withRange_eq_next h).2 rfl⟩
  | seImm | sneImm | seReg | sneReg => exact ⟨nofun, fun _ => vf_of_commit h (s.skipIf_v _)⟩
  | skp =>
    obtain ⟨pressed, -, rfl⟩ := execSkp_eq_next h
    exact ⟨nofun, fun _ => s.reg_skipIf pressed 15⟩
  | sknp =>
    obtain ⟨pressed, -, rfl⟩ := execSknp_eq_next h
    exact ⟨nofun, fun _ => s.reg_skipIf (!pressed) 15⟩
  | addI =>
    obtain ⟨-, rfl⟩ := execAddI_eq_next h
    exact ⟨nofun, fun _ => rfl⟩
  | ret =>
    obtain ⟨w, u, hpop, rfl⟩ := execRet_eq_next h
    obtain ⟨_, _, _, hu⟩ := State.pop?_eq_some hpop
    exact ⟨nofun, fun _ => State.reg_congr (congrArg State.v hu) 15⟩
  | call =>
    obtain ⟨u, hpush, rfl⟩ := execCall_eq_next h
    obtain ⟨_, _, hu⟩ := State.push?_eq_some hpush
    exact ⟨nofun, fun _ => State.reg_congr (congrArg State.v hu) 15⟩

/-- Settles O51, by `exec_vf`: the flag writers that write VF last, the shifts, and every other instruction. -/
theorem onlyFlagWritersTouchVf : Obligations.OnlyFlagWritersTouchVf :=
  fun _ _ _ h hd => exec_vf h hd

end Sys2Proof.Machine

/-! SUPPORT. The next fetch after a store: it is a function of the memory it finds (spec/20_memory.md R51), so the bytes
after a store, which `State.byte_storeBytes` gives at every address, decide what runs. -/

namespace Sys2Proof.Machine

variable {s t u : State}

/-- The next step is decided by the bytes memory holds: a fetch reads memory as the last write left it (R51, R83). -/
theorem nextStepRunsFrom_of_byte {contents : Nat → Byte} (h : ∀ a, t.byte a = contents a) :
    NextStepRunsFrom t contents := by
  intro hpc
  have hfetch := t.fetch?_ok hpc
  refine ⟨_, hfetch, ?_, fun i hdecode => step_eq_exec hfetch hdecode⟩
  rw [toNat_opcodeOfBytes, h, h]

/-- A checked, non-empty store followed by `PC + 2` (Fx33, Fx55): it commits only where the bytes fit (R43). -/
theorem checkedStore_eq_next {n : Nat} {bs : List Byte}
    (h : withRange s.base n (commit (s.storeBytes s.base bs).advance) = .next t) (hn : n ≠ 0) (hlen : bs.length = n) :
    s.base + bs.length ≤ Config.memSize ∧ t = (s.storeBytes s.base bs).advance := by
  obtain ⟨hrange, hcommit⟩ := withRange_eq_next h
  exact ⟨hlen ▸ hrange.resolve_left hn, eq_of_commit_eq_next hcommit⟩

/-- After Fx33 or Fx55 the next step, at `PC + 2`, runs from memory with the stored bytes in it. -/
theorem checkedStore_then_nextStep {n : Nat} {bs : List Byte} (hw : s.mem.wf)
    (h : withRange s.base n (commit (s.storeBytes s.base bs).advance) = .next t) (hn : n ≠ 0) (hlen : bs.length = n) :
    t.pc = s.pc + 2#16 ∧ NextStepRunsFrom t (overwritten s s.base bs) := by
  obtain ⟨hfits, rfl⟩ := checkedStore_eq_next h hn hlen
  exact ⟨rfl, nextStepRunsFrom_of_byte (s.byte_storeBytes hw hfits)⟩

/-- A transaction that commits answers `ok` in its state, with the edge of BEEP as its event. -/
theorem perform_of_transact_eq_next {tr : Transaction} (h : transact tr s = .next u) :
    perform tr s = { state := u, status := .ok, event := beepEdge s u } := by
  rw [perform, h]

/-- A ROM that fits is stored from 0x200, and nothing else changes (R203). -/
theorem transact_load_of_fits {rom : List Byte} (h : rom.length ≤ Config.romMax) (s : State) :
    transact (.load rom) s = .next (s.storeBytes Config.progBase rom) :=
  if_neg (Nat.not_lt.2 h)

/-- A ROM of at most 3584 bytes ends inside the address space. -/
theorem progBase_add_le_memSize {n : Nat} (h : n ≤ Config.romMax) : Config.progBase + n ≤ Config.memSize :=
  Nat.add_le_add_left h Config.progBase

/-- Settles O30: Fx33, Fx55 and `load` each leave `State.storeBytes` of bytes that fit, and the next step runs from the
bytes memory then holds. -/
theorem storedOpcodeIsFetchedNext : Obligations.StoredOpcodeIsFetchedNext := by
  intro s hw
  refine ⟨fun x t h => ?ldB, fun x t h => ?storeRegs, fun rom hrom => ?load⟩
  case ldB => exact checkedStore_then_nextStep hw h (by decide) rfl
  case storeRegs => exact checkedStore_then_nextStep hw h x.val.succ_ne_zero (s.length_regList x.isLt)
  case load =>
    rw [perform_of_transact_eq_next (transact_load_of_fits hrom s)]
    exact ⟨rfl, nextStepRunsFrom_of_byte (s.byte_storeBytes hw (progBase_add_le_memSize hrom))⟩

end Sys2Proof.Machine

/-! SUPPORT. Decoding and encoding are inverse on the well-formed instructions (spec/30_encoding.md R60 to R66): one
lemma per dispatch of the decoder for the way back, and the fields that a matching mask fixes for R64. -/

namespace Sys2Proof

open Machine

variable {op : Word} {i : Instr}

/-! ### Decoding what was encoded -/

/-- The decoder reads every field where the encoder packed it; only Dxyn's count can miss its field (R63). -/
theorem decode_encode (hi : i.wellFormed = true) : decode (encode i) = .ok i := by
  cases i with
  | cls | ret => rfl
  | jp | call | ldI | jpV0 => simp [encode, decode]
  | seImm | sneImm | ldImm | addImm | rnd => simp [encode, decode]
  | seReg | sneReg => simp [encode, decode]
  | ldReg | orReg | andReg | xorReg | addReg | subReg | shr | subnReg | shl => simp [encode, decode, decodeFamily8]
  | drw x y n =>
    have hn : n % 16 = n := Nat.mod_eq_of_lt (Nat.lt_succ_of_le (of_decide_eq_true hi))
    simp [encode, decode, hn]
  | skp | sknp => simp [encode, decode, decodeFamilyE]
  | ldVxDt | ldVxK | ldDtVx | ldStVx | addI | ldF | ldB | storeRegs | loadRegs =>
    simp [encode, decode, decodeFamilyF]

/-- An opcode's two bytes in memory order decode as the opcode does, with nothing left over (R60, R44). -/
theorem decodeBytes_opcodeBytes (h : decode op = .ok i) : decodeBytes (opcodeBytes op) = .ok (i, []) := by
  simp [opcodeBytes, decodeBytes, opcodeOfBytes_bytes, h]

/-- Settles O2, by `decode_encode`, for the opcode and for its bytes. -/
theorem encodedInstructionsDecodeBack : Obligations.EncodedInstructionsDecodeBack :=
  fun _ hi => ⟨decode_encode hi, decodeBytes_opcodeBytes (decode_encode hi)⟩

/-! ### Encoding what was decoded, one lemma per secondary dispatch -/

theorem encode_of_decodeFamily0 {nnn : Addr12} (h : decodeFamily0 nnn = .ok i) :
    i.wellFormed = true ∧ encode i = packA 0x0#4 nnn := by
  unfold decodeFamily0 at h
  split_ifs at h with hnnn hnnn
  all_goals cases h; subst hnnn; exact ⟨rfl, rfl⟩

theorem encode_of_decodeFamily8 {x y : Reg} {n : Nat} (h : decodeFamily8 x y n = .ok i) :
    i.wellFormed = true ∧ encode i = packR 0x8#4 x y (BitVec.ofNat 4 n) := by
  unfold decodeFamily8 at h
  split at h <;> cases h
  all_goals exact ⟨rfl, rfl⟩

theorem encode_of_decodeFamilyE {x : Reg} {nn : Byte} (h : decodeFamilyE x nn = .ok i) :
    i.wellFormed = true ∧ encode i = packI 0xE#4 x nn := by
  unfold decodeFamilyE at h
  split_ifs at h with hnn hnn
  all_goals cases h; subst hnn; exact ⟨rfl, rfl⟩

theorem encode_of_decodeFamilyF {x : Reg} {nn : Byte} (h : decodeFamilyF x nn = .ok i) :
    i.wellFormed = true ∧ encode i = packI 0xF#4 x nn := by
  unfold decodeFamilyF at h
  split_ifs at h with hnn hnn hnn hnn hnn hnn hnn hnn hnn
  all_goals cases h; subst hnn; exact ⟨rfl, rfl⟩

/-! ### An opcode from its family and the remaining fields -/

theorem packA_eq_of_famOf {f : BitVec 4} (hf : (famOf op).toNat = f.toNat) : packA f (nnnOf op) = op := by
  rw [← BitVec.eq_of_toNat_eq hf, packA_fields]

theorem packI_eq_of_famOf {f : BitVec 4} (hf : (famOf op).toNat = f.toNat) : packI f (xOf op) (nnOf op) = op := by
  rw [← BitVec.eq_of_toNat_eq hf, packI_fields]

theorem packR_eq_of_famOf {f : BitVec 4} {n : Nat} (hf : (famOf op).toNat = f.toNat) (hn : nOf op = n) :
    packR f (xOf op) (yOf op) (BitVec.ofNat 4 n) = op := by
  rw [← BitVec.eq_of_toNat_eq hf, ← hn, packR_fields]

/-- The sprite height an opcode holds is a well-formed one (R63). -/
theorem wellFormed_drw_nOf (op : Word) : (Instr.drw (xOf op) (yOf op) (nOf op)).wellFormed = true :=
  decide_eq_true (Nat.le_of_lt_succ (nOf_lt op))

/-- Each arm of the decoder keeps every operand field of its format, so packing them again gives the opcode (R61,
R65). The arm `h_k` is family `k - 1`; the last one, family F, is what the others leave. -/
theorem encode_of_decode (h : decode op = .ok i) : i.wellFormed = true ∧ encode i = op := by
  unfold decode at h
  split at h
  case h_1 hf => exact (encode_of_decodeFamily0 h).imp_right (·.trans (packA_eq_of_famOf hf))
  case h_9 hf => exact (encode_of_decodeFamily8 h).imp_right (·.trans (packR_eq_of_famOf hf rfl))
  case h_15 hf => exact (encode_of_decodeFamilyE h).imp_right (·.trans (packI_eq_of_famOf hf))
  case h_16 =>
    have hf : (famOf op).toNat = 15 := by
      have := (famOf op).isLt
      simp only [imp_false] at *
      omega
    exact (encode_of_decodeFamilyF h).imp_right (·.trans (packI_eq_of_famOf hf))
  case h_6 hf | h_10 hf =>
    split_ifs at h with hn
    cases h
    exact ⟨rfl, packR_eq_of_famOf hf hn⟩
  case h_14 hf =>
    cases h
    exact ⟨wellFormed_drw_nOf op, packR_eq_of_famOf hf rfl⟩
  case h_2 hf | h_3 hf | h_11 hf | h_12 hf =>
    cases h
    exact ⟨rfl, packA_eq_of_famOf hf⟩
  case h_4 hf | h_5 hf | h_7 hf | h_8 hf | h_13 hf =>
    cases h
    exact ⟨rfl, packI_eq_of_famOf hf⟩

/-- Settles O3, by `encode_of_decode`. -/
theorem decodedOpcodesEncodeBack : Obligations.DecodedOpcodesEncodeBack :=
  fun _ _ h => encode_of_decode h

/-! ### The instruction of a matching row (R64) -/

/-- A full mask fixes the opcode. -/
theorem eq_of_selects {m : Word} (h : selects op (m, 0xFFFF#16) = true) : m = op :=
  (eq_of_beq h).symm.trans BitVec.and_allOnes

/-- Mask F000 fixes the family. -/
theorem famOf_of_selects {f : BitVec 4} (h : selects op (packA f 0#12, 0xF000#16) = true) :
    (famOf op).toNat = f.toNat := by
  have hm : packA (famOf op) 0#12 = packA f 0#12 := by
    rw [← packA_and_family _ (nnnOf op), packA_fields]
    exact eq_of_beq h
  simpa using congrArg (fun w => (famOf w).toNat) hm

/-- Mask F00F fixes the family and `n`. -/
theorem packR_eq_of_selects {f n : BitVec 4} (h : selects op (packR f 0 0 n, 0xF00F#16) = true) :
    packR f (xOf op) (yOf op) n = op := by
  have hm : packR (famOf op) 0 0 (BitVec.ofNat 4 (nOf op)) = packR f 0 0 n := by
    rw [← packR_and_subop _ (xOf op) (yOf op), packR_fields]
    exact eq_of_beq h
  have hf : famOf op = f := by simpa using congrArg famOf hm
  have hn : BitVec.ofNat 4 (nOf op) = n := by
    simpa [Nat.mod_eq_of_lt (nOf_lt op)] using congrArg (fun w => BitVec.ofNat 4 (nOf w)) hm
  rw [← hf, ← hn, packR_fields]

/-- Mask F0FF fixes the family and `nn`. -/
theorem packI_eq_of_selects {f : BitVec 4} {nn : Byte} (h : selects op (packI f 0 nn, 0xF0FF#16) = true) :
    packI f (xOf op) nn = op := by
  have hm : packI (famOf op) 0 (nnOf op) = packI f 0 nn := by
    rw [← packI_and_subop _ (xOf op), packI_fields]
    exact eq_of_beq h
  have hf : famOf op = f := by simpa using congrArg famOf hm
  have hnn : nnOf op = nn := by simpa using congrArg nnOf hm
  rw [← hf, ← hnn, packI_fields]

/-- An opcode that matches the row of some instruction is the encoding of that row's instruction with the opcode's own
operand fields. -/
theorem exists_encode_eq_of_selects {j : Instr} (h : selects op j.row = true) :
    ∃ i : Instr, i.wellFormed = true ∧ i.row = j.row ∧ encode i = op := by
  cases j with
  | cls => exact ⟨.cls, rfl, rfl, eq_of_selects h⟩
  | ret => exact ⟨.ret, rfl, rfl, eq_of_selects h⟩
  | jp => exact ⟨.jp (nnnOf op), rfl, rfl, packA_eq_of_famOf (famOf_of_selects h)⟩
  | call => exact ⟨.call (nnnOf op), rfl, rfl, packA_eq_of_famOf (famOf_of_selects h)⟩
  | seImm => exact ⟨.seImm (xOf op) (nnOf op), rfl, rfl, packI_eq_of_famOf (famOf_of_selects h)⟩
  | sneImm => exact ⟨.sneImm (xOf op) (nnOf op), rfl, rfl, packI_eq_of_famOf (famOf_of_selects h)⟩
  | seReg => exact ⟨.seReg (xOf op) (yOf op), rfl, rfl, packR_eq_of_selects h⟩
  | ldImm => exact ⟨.ldImm (xOf op) (nnOf op), rfl, rfl, packI_eq_of_famOf (famOf_of_selects h)⟩
  | addImm => exact ⟨.addImm (xOf op) (nnOf op), rfl, rfl, packI_eq_of_famOf (famOf_of_selects h)⟩
  | ldReg => exact ⟨.ldReg (xOf op) (yOf op), rfl, rfl, packR_eq_of_selects h⟩
  | orReg => exact ⟨.orReg (xOf op) (yOf op), rfl, rfl, packR_eq_of_selects h⟩
  | andReg => exact ⟨.andReg (xOf op) (yOf op), rfl, rfl, packR_eq_of_selects h⟩
  | xorReg => exact ⟨.xorReg (xOf op) (yOf op), rfl, rfl, packR_eq_of_selects h⟩
  | addReg => exact ⟨.addReg (xOf op) (yOf op), rfl, rfl, packR_eq_of_selects h⟩
  | subReg => exact ⟨.subReg (xOf op) (yOf op), rfl, rfl, packR_eq_of_selects h⟩
  | shr => exact ⟨.shr (xOf op) (yOf op), rfl, rfl, packR_eq_of_selects h⟩
  | subnReg => exact ⟨.subnReg (xOf op) (yOf op), rfl, rfl, packR_eq_of_selects h⟩
  | shl => exact ⟨.shl (xOf op) (yOf op), rfl, rfl, packR_eq_of_selects h⟩
  | sneReg => exact ⟨.sneReg (xOf op) (yOf op), rfl, rfl, packR_eq_of_selects h⟩
  | ldI => exact ⟨.ldI (nnnOf op), rfl, rfl, packA_eq_of_famOf (famOf_of_selects h)⟩
  | jpV0 => exact ⟨.jpV0 (nnnOf op), rfl, rfl, packA_eq_of_famOf (famOf_of_selects h)⟩
  | rnd => exact ⟨.rnd (xOf op) (nnOf op), rfl, rfl, packI_eq_of_famOf (famOf_of_selects h)⟩
  | drw => exact ⟨.drw (xOf op) (yOf op) (nOf op), wellFormed_drw_nOf op, rfl,
      packR_eq_of_famOf (famOf_of_selects h) rfl⟩
  | skp => exact ⟨.skp (xOf op), rfl, rfl, packI_eq_of_selects h⟩
  | sknp => exact ⟨.sknp (xOf op), rfl, rfl, packI_eq_of_selects h⟩
  | ldVxDt => exact ⟨.ldVxDt (xOf op), rfl, rfl, packI_eq_of_selects h⟩
  | ldVxK => exact ⟨.ldVxK (xOf op), rfl, rfl, packI_eq_of_selects h⟩
  | ldDtVx => exact ⟨.ldDtVx (xOf op), rfl, rfl, packI_eq_of_selects h⟩
  | ldStVx => exact ⟨.ldStVx (xOf op), rfl, rfl, packI_eq_of_selects h⟩
  | addI => exact ⟨.addI (xOf op), rfl, rfl, packI_eq_of_selects h⟩
  | ldF => exact ⟨.ldF (xOf op), rfl, rfl, packI_eq_of_selects h⟩
  | ldB => exact ⟨.ldB (xOf op), rfl, rfl, packI_eq_of_selects h⟩
  | storeRegs => exact ⟨.storeRegs (xOf op), rfl, rfl, packI_eq_of_selects h⟩
  | loadRegs => exact ⟨.loadRegs (xOf op), rfl, rfl, packI_eq_of_selects h⟩

/-! ### An instruction's own row -/

theorem row_mem_opcodeMap (i : Instr) : i.row ∈ opcodeMap := by
  cases i <;> simp [Instr.row, opcodeMap]

/-- Each row is the row of the instruction that its `match` column, read as an opcode, decodes to. -/
theorem exists_row_eq {row : Word × Word} (h : row ∈ opcodeMap) : ∃ j : Instr, j.row = row := by
  have hmatch : opcodeMap.all (fun r => (decode r.1).toOption.map Instr.row == some r) = true := by decide
  obtain ⟨j, -, hj⟩ := Option.map_eq_some_iff.1 (eq_of_beq (List.all_eq_true.1 hmatch row h))
  exact ⟨j, hj⟩

open Laws.EncodingRow in
/-- An encoded instruction selects its own row, well-formed or not: the laws of Laws/PerInstr.lean as one. -/
theorem selects_encode (i : Instr) : selects (encode i) i.row = true := by
  cases i
  exacts [cls, ret, jp _, call _, seImm _ _, sneImm _ _, seReg _ _, ldImm _ _, addImm _ _, ldReg _ _, orReg _ _,
    andReg _ _, xorReg _ _, addReg _ _, subReg _ _, shr _ _, subnReg _ _, shl _ _, sneReg _ _, ldI _, jpV0 _, rnd _ _,
    drw _ _ _, skp _, sknp _, ldVxDt _, ldVxK _, ldDtVx _, ldStVx _, addI _, ldF _, ldB _, storeRegs _, loadRegs _]

/-- The operand fields of R61 fill the bits that the row's `match` leaves zero. -/
theorem toNat_encode (hi : i.wellFormed = true) : (encode i).toNat = i.row.1.toNat + operandBits i := by
  cases i with
  | cls | ret => rfl
  | jp | call | ldI | jpV0 => exact toNat_packA _ _
  | seImm | sneImm | ldImm | addImm | rnd => exact (toNat_packI _ _ _).trans (Nat.add_assoc _ _ _)
  | seReg | sneReg | ldReg | orReg | andReg | xorReg | addReg | subReg | shr | subnReg | shl =>
    simp only [encode, toNat_packR, Instr.row, operandBits, BitVec.toNat_ofNat]
    omega
  | drw x y n =>
    have hn : n ≤ 15 := of_decide_eq_true hi
    simp only [encode, toNat_packR, Instr.row, operandBits, BitVec.toNat_ofNat]
    omega
  | skp | sknp | ldVxDt | ldVxK | ldDtVx | ldStVx | addI | ldF | ldB | storeRegs | loadRegs =>
    simp only [encode, toNat_packI, Instr.row, operandBits, BitVec.toNat_ofNat]
    omega

/-- A matching row is the row of the instruction decoded. -/
theorem decode_of_selects {row : Word × Word} (hrow : row ∈ opcodeMap) (h : selects op row = true) :
    ∃ i, decode op = .ok i ∧ i.row = row := by
  obtain ⟨j, rfl⟩ := exists_row_eq hrow
  obtain ⟨i, hwf, hij, rfl⟩ := exists_encode_eq_of_selects h
  exact ⟨i, decode_encode hwf, hij⟩

/-- A decoded opcode matches its instruction's row. -/
theorem selects_of_decode (h : decode op = .ok i) : selects op i.row = true :=
  (encode_of_decode h).2 ▸ selects_encode i

/-- Settles O4. Two matching rows are both the row of the one instruction decoded; an opcode that decodes matches a
row, so one that matches none does not decode. -/
theorem decodeSelectsTheMatchingRow : Obligations.DecodeSelectsTheMatchingRow := by
  intro op
  refine ⟨fun i h => ?decoded, fun _ => decode_of_selects, fun row hrow row' hrow' h h' => ?exclusive,
    fun hnone => ?unmatched⟩
  case decoded =>
    obtain ⟨hwf, rfl⟩ := encode_of_decode h
    exact ⟨row_mem_opcodeMap i, selects_encode i, hwf, toNat_encode hwf⟩
  case exclusive =>
    obtain ⟨i, hi, rfl⟩ := decode_of_selects hrow h
    obtain ⟨i', hi', rfl⟩ := decode_of_selects hrow' h'
    cases hi.symm.trans hi'
    rfl
  case unmatched =>
    cases hdec : decode op with
    | error e => exact ⟨e, rfl⟩
    | ok i => exact absurd (selects_of_decode hdec) (by simp [hnone _ (row_mem_opcodeMap i)])

end Sys2Proof

/-! SUPPORT. The step and the transactions around it (spec/40_step_cycle.md R81, R83, R85): where a step fails in the
fetch, the next PC of every class of instruction, what a transaction leaves, and the induction over schedules. -/

namespace Sys2Proof.Machine

variable {s t u : State} {tr : Transaction}

/-! ### The fetch (R83) -/

/-- No opcode is fetched from a pair of bytes that leaves memory. -/
theorem step_of_pc_outside (h : s.pc.toNat + 1 > 0xFFF) : step s = .fault .outOfBounds := by
  rw [step, s.fetch?_fails h]
  rfl

/-- The opcode fetched is the number its two bytes make, high byte first. -/
theorem State.fetch?_of_toNat {op : Word} (h : s.pc.toNat + 1 ≤ 0xFFF)
    (hop : op.toNat = (s.byte s.pc.toNat).toNat * 256 + (s.byte (s.pc.toNat + 1)).toNat) : s.fetch? = some op := by
  rw [s.fetch?_ok h, BitVec.eq_of_toNat_eq (hop.trans (toNat_opcodeOfBytes _ _).symm)]

/-- Settles O6: the fetch fails above 0xFFE and reads the big-endian opcode below it. -/
theorem stepRunsTheInstructionAtPc : Obligations.StepRunsTheInstructionAtPc :=
  fun _ => ⟨step_of_pc_outside, fun hpc _ _ hop hdecode => step_eq_exec (State.fetch?_of_toNat hpc hop) hdecode⟩

/-! ### The next PC (R85) -/

/-- An address immediate, as the number its target is given by. -/
theorem zextAddr_eq_ofNat (nnn : Addr12) : zextAddr nnn = BitVec.ofNat 16 nnn.toNat :=
  (BitVec.ofNat_toNat 16 nnn).symm

/-- Bnnn's target, as the sum of its two parts. -/
theorem offsetTarget_eq_ofNat (nnn : Addr12) (b : Byte) :
    zextAddr nnn + zextByte b = BitVec.ofNat 16 (nnn.toNat + b.toNat) := by
  rw [BitVec.ofNat_add, BitVec.ofNat_toNat, BitVec.ofNat_toNat]
  rfl

/-- The default class: `PC + 2`. -/
theorem pc_of_commit_advance (h : commit u.advance = .next t) (hu : u.pc = s.pc) : t.pc = s.pc + 2#16 := by
  rw [eq_of_commit_eq_next h, State.advance_pc, hu]

/-- A skip goes where the conditional class says for the condition it tests. -/
theorem State.skipIf_pc_eq_skipPc {c : Bool} {p : Prop} [Decidable p] (hc : c = true ↔ p) :
    (s.skipIf c).pc = skipPc s p := by
  simp only [State.skipIf_pc_eq, skipPc, hc]

theorem pc_of_commit_skipIf {c : Bool} {p : Prop} [Decidable p] (h : commit (s.skipIf c) = .next t)
    (hc : c = true ↔ p) : t.pc = skipPc s p := by
  rw [eq_of_commit_eq_next h, State.skipIf_pc_eq_skipPc hc]

/-- A key answers only for a number that names one. -/
theorem State.key?_eq_some {n : Nat} {b : Bool} : s.key? n = some b ↔ ∃ k : Fin 16, k.val = n ∧ s.key[k] = b := by
  constructor
  · intro h
    have hn : n < 16 := by
      by_contra hn
      rw [State.key?_eq_none.2 (Nat.le_of_not_lt hn)] at h
      cases h
    rw [s.key?_of_lt hn] at h
    exact ⟨⟨n, hn⟩, rfl, Option.some.inj h⟩
  · rintro ⟨k, rfl, rfl⟩
    exact s.key?_of_lt k.isLt

/-- 00EE goes to the entry below SP. -/
theorem pc_of_execRet (h : execRet s = .next t) : t.pc = s.stack.toList.getD (s.sp.val - 1) 0 := by
  obtain ⟨w, u, hpop, rfl⟩ := execRet_eq_next h
  obtain ⟨hsp, rfl, -, -⟩ := State.pop?_eq_some hpop
  have hlt : s.sp.val - 1 < s.stack.toList.length := by
    have := s.sp.isLt
    rw [Vector.length_toList]
    omega
  rw [State.setPc_pc, List.getD_eq_getElem _ _ hlt, Vector.getElem_toList]

/-- Fx0A stays where it is exactly while no key is pressed. -/
theorem pc_of_execLdVxK {x : Reg} (h : execLdVxK x s = .next t) :
    t.pc = if ∃ k : Fin 16, s.key[k] = true then s.pc + 2#16 else s.pc := by
  obtain ⟨hnone, rfl⟩ | ⟨k, hsome, rfl⟩ := execLdVxK_eq_next h
  · rw [if_neg]
    rintro ⟨k, hk⟩
    exact Bool.false_ne_true ((State.lowestKey?_eq_none.1 hnone k).symm.trans hk)
  · obtain ⟨hk, hpressed, -⟩ := State.lowestKey?_eq_some.1 hsome
    rw [if_pos ⟨⟨k, hk⟩, hpressed⟩]
    rfl

/-- Every instruction that commits leaves PC where its class says. -/
theorem pc_of_exec {i : Instr} (h : exec i s = .next t) : t.pc = nextPc i s := by
  cases i with
  | cls | ldImm | addImm | ldReg | orReg | andReg | xorReg | addReg | subReg | shr | subnReg | shl | ldI | rnd
  | ldVxDt | ldDtVx | ldStVx | ldF => exact pc_of_commit_advance h rfl
  | drw | ldB | storeRegs | loadRegs => exact pc_of_commit_advance (withRange_eq_next h).2 rfl
  | addI =>
    obtain ⟨-, rfl⟩ := execAddI_eq_next h
    rfl
  | jp nnn =>
    rw [eq_of_commit_eq_next h]
    exact zextAddr_eq_ofNat nnn
  | call nnn =>
    obtain ⟨u, -, rfl⟩ := execCall_eq_next h
    exact zextAddr_eq_ofNat nnn
  | jpV0 nnn =>
    rw [eq_of_commit_eq_next h]
    exact offsetTarget_eq_ofNat nnn _
  | ret => exact pc_of_execRet h
  | seImm | seReg => exact pc_of_commit_skipIf h beq_iff_eq
  | sneImm | sneReg => exact pc_of_commit_skipIf h bne_iff_ne
  | skp x =>
    obtain ⟨pressed, hkey, rfl⟩ := execSkp_eq_next h
    exact State.skipIf_pc_eq_skipPc (by rw [← State.key?_eq_some, hkey, Option.some.injEq])
  | sknp x =>
    obtain ⟨pressed, hkey, rfl⟩ := execSknp_eq_next h
    exact State.skipIf_pc_eq_skipPc (by rw [← State.key?_eq_some, hkey, Option.some.injEq, Bool.not_eq_true'])
  | ldVxK => exact pc_of_execLdVxK h

/-! ### Transactions (R81, R161) -/

/-- A transaction ends in the state it commits, or in the very same state. -/
theorem perform_cases (tr : Transaction) (s : State) :
    (∃ u, transact tr s = .next u ∧ perform tr s = { state := u, status := .ok, event := beepEdge s u }) ∨
    (perform tr s).state = s := by
  cases h : transact tr s with
  | next u => exact .inl ⟨u, rfl, perform_of_transact_eq_next h⟩
  | fault f => exact .inr (by rw [perform, h])
  | refused r => exact .inr (by rw [perform, h])

/-- A failure changes nothing (R161). -/
theorem state_perform_of_failed {f : Fault} (h : (perform tr s).status = .failed f) : (perform tr s).state = s := by
  obtain ⟨u, -, hu⟩ | hs := perform_cases tr s
  · rw [hu] at h
    cases h
  · exact hs

/-- Settles O49, by the class of each instruction, and by `state_perform_of_failed` for the step that fails. -/
theorem nextPcFollowsItsClass : Obligations.NextPcFollowsItsClass :=
  ⟨fun _ _ _ h => pc_of_exec h, fun _ _ h => congrArg State.pc (state_perform_of_failed h)⟩

/-- `load` commits only a ROM that fits, stored from 0x200 (R203). -/
theorem loadRom_eq_next {rom : List Byte} (h : loadRom rom s = .next t) :
    rom.length ≤ Config.romMax ∧ t = s.storeBytes Config.progBase rom := by
  unfold loadRom at h
  split at h
  · cases h
  · exact ⟨Nat.le_of_not_lt ‹_›, eq_of_commit_eq_next h⟩

/-- `set_key` commits with another keypad and nothing else (R172). -/
theorem setKey_eq_next {index : Int} {pressed : Bool} (h : setKey index pressed s = .next t) :
    ∃ key, t = { s with key := key } := by
  unfold setKey at h
  split at h
  · exact ⟨_, eq_of_commit_eq_next h⟩
  · cases h

/-! ### The invariant along a schedule -/

theorem State.inv_reset : State.reset.Inv :=
  ⟨State.wf_reset, by decide, fun _ hk => absurd hk (Nat.not_lt_zero _)⟩

/-- Every transaction that commits keeps the invariant: `reset` establishes it, `step` and `load` keep it, and the others
touch neither memory, PC nor the stack. -/
theorem transact_keeps_inv (h : transact tr s = .next t) (hi : s.Inv) : t.Inv := by
  cases tr with
  | step => exact stepKeepsTheInvariant s t hi h
  | reset =>
    rw [eq_of_commit_eq_next h]
    exact State.inv_reset.congr rfl rfl rfl rfl
  | load rom =>
    obtain ⟨hfits, rfl⟩ := loadRom_eq_next h
    exact hi.storeBytes (progBase_add_le_memSize hfits)
  | setKey index pressed =>
    obtain ⟨key, rfl⟩ := setKey_eq_next h
    exact hi.congr rfl rfl rfl rfl
  | tickTimers | ackDirty =>
    rw [eq_of_commit_eq_next h]
    exact hi.congr rfl rfl rfl rfl

/-- Committed or failed, a transaction ends in a state that meets the invariant. -/
theorem perform_keeps_inv (tr : Transaction) (hi : s.Inv) : (perform tr s).state.Inv := by
  obtain ⟨u, hcommit, hu⟩ | hs := perform_cases tr s
  · rw [hu]
    exact transact_keeps_inv hcommit hi
  · rwa [hs]

/-- What every transaction keeps, every schedule keeps. -/
theorem runSchedule_induction {P : State → Prop} (hP : ∀ tr s, P s → P (perform tr s).state)
    (schedule : List Transaction) (s : State) (hs : P s) : P (runSchedule schedule s) := by
  induction schedule generalizing s with
  | nil => exact hs
  | cons tr schedule ih => exact ih _ (hP tr s hs)

/-- Settles O55, by induction on the schedule: every transaction keeps the invariant, a failed one by changing
nothing. -/
theorem everyScheduleKeepsTheInvariant : Obligations.EveryScheduleKeepsTheInvariant :=
  runSchedule_induction fun tr _ hi => perform_keeps_inv tr hi

end Sys2Proof.Machine

/-! SUPPORT. Control transfer (spec/41_control_flow.md R90 to R93): the frame rules that jumps, calls and returns need,
what each of the four instructions does, the stack round trip from the two contracts of call and return, and the step
that ends where it began. -/

namespace Sys2Proof.Machine

variable {s t u : State} {parts parts' : Set Part} {w : Word} {nnn : Addr12}

/-! ### Frames -/

theorem OnlyChanges.refl (s : State) (parts : Set Part) : OnlyChanges s s parts := by
  intro p _
  cases p <;> rfl

/-- A frame may be widened. -/
theorem OnlyChanges.mono (h : OnlyChanges s t parts) (hsub : parts ⊆ parts') : OnlyChanges s t parts' :=
  fun p hp => h p (mt (@hsub p) hp)

/-- Setting PC last adds nothing to a frame that already lets PC change. -/
theorem OnlyChanges.setPc (h : OnlyChanges s t parts) (hpc : .pc ∈ parts) (w : Word) :
    OnlyChanges s (t.setPc w) parts := by
  intro p hp
  cases p with
  | pc => exact absurd hpc hp
  | _ => exact h _ hp

theorem onlyChanges_setPc (s : State) (w : Word) : OnlyChanges s (s.setPc w) {.pc} :=
  (OnlyChanges.refl s _).setPc (Set.mem_singleton _) w

/-- A pop changes SP alone. -/
theorem onlyChanges_of_pop? (h : s.pop? = some (w, u)) : OnlyChanges s u {.sp} := by
  obtain ⟨-, -, -, hu⟩ := State.pop?_eq_some h
  rw [hu]
  intro p hp
  cases p with
  | sp => exact absurd rfl hp
  | _ => rfl

/-- A push changes SP and the entry it names. -/
theorem onlyChanges_of_push? (h : s.push? w = some u) :
    OnlyChanges s u ({.sp} ∪ {p | ∃ k : Fin 16, k.val = s.sp.val ∧ p = .stackEntry k}) := by
  obtain ⟨hs, -, hu⟩ := State.push?_eq_some h
  rw [hu]
  intro p hp
  cases p with
  | sp => exact absurd (.inl rfl) hp
  | stackEntry k =>
    have hk : s.sp.val ≠ k.val := fun hk => hp (.inr ⟨k, hk.symm, rfl⟩)
    exact Vector.getElem_set_ne hs k.isLt hk
  | _ => rfl

/-! ### Jumps (R91, R93) -/

theorem exec_jp (nnn : Addr12) (s : State) : exec (.jp nnn) s = .next (s.setPc (zextAddr nnn)) := rfl

theorem exec_jpV0 (nnn : Addr12) (s : State) :
    exec (.jpV0 nnn) s = .next (s.setPc (zextAddr nnn + zextByte (s.reg 0))) := rfl

/-- The farthest target, 0xFFF + 0xFF, fits sixteen bits, so the sum is the one over the integers. -/
theorem toNat_offsetTarget (nnn : Addr12) (b : Byte) : (zextAddr nnn + zextByte b).toNat = nnn.toNat + b.toNat := by
  rw [offsetTarget_eq_ofNat, BitVec.toNat_ofNat]
  omega

/-- Settles O8: the jump is `State.setPc`. -/
theorem jumpGoesToItsAddress : Obligations.JumpGoesToItsAddress :=
  fun nnn => ⟨decode_encode (i := .jp nnn) rfl,
    fun s => ⟨_, exec_jp nnn s, toNat_zextAddr nnn, onlyChanges_setPc s _⟩⟩

/-- Settles O9: the jump is `State.setPc`, to a sum that does not wrap. -/
theorem offsetJumpAddsV0 : Obligations.OffsetJumpAddsV0 :=
  fun nnn => ⟨decode_encode (i := .jpV0 nnn) rfl,
    fun s => ⟨_, exec_jpV0 nnn s, toNat_offsetTarget nnn _, onlyChanges_setPc s _⟩⟩

/-! ### Call and return (R92, R90) -/

theorem State.exists_push? (h : s.sp.val < 16) (w : Word) : ∃ u, s.push? w = some u :=
  Option.ne_none_iff_exists'.1 fun hnone => h.ne (State.push?_eq_none.1 hnone)

theorem State.exists_pop? (h : s.sp.val ≠ 0) : ∃ w u, s.pop? = some (w, u) := by
  obtain ⟨⟨w, u⟩, hpop⟩ := Option.ne_none_iff_exists'.1 (mt State.pop?_eq_none.1 h)
  exact ⟨w, u, hpop⟩

theorem exec_call_of_push? (h : s.push? (s.pc + 2#16) = some u) :
    exec (.call nnn) s = .next (u.setPc (zextAddr nnn)) := by
  simp only [exec, execCall, h, commit]

theorem exec_call_of_full (h : s.sp.val = 16) : exec (.call nnn) s = .fault .stackOverflow := by
  simp only [exec, execCall, State.push?_eq_none.2 h, raise]

theorem exec_ret_of_pop? (h : s.pop? = some (w, u)) : exec .ret s = .next (u.setPc w) := by
  simp only [exec, execRet, h, commit]

theorem exec_ret_of_empty (h : s.sp.val = 0) : exec .ret s = .fault .stackUnderflow := by
  simp only [exec, execRet, State.pop?_eq_none.2 h, raise]

/-- The pushed word is the entry at the old SP. -/
theorem State.stack_of_push? (h : s.push? w = some u) {k : Fin 16} (hk : k.val = s.sp.val) : u.stack[k] = w := by
  obtain ⟨hs, -, hu⟩ := State.push?_eq_some h
  rw [hu]
  simp [hk]

/-- The popped word is the entry below the old SP. -/
theorem State.stack_of_pop? (h : s.pop? = some (w, u)) {k : Fin 16} (hk : k.val + 1 = s.sp.val) : w = s.stack[k] := by
  obtain ⟨-, rfl, -, -⟩ := State.pop?_eq_some h
  simp [← hk]

/-- Settles O10: below sixteen entries the call is a push and a `State.setPc`, at sixteen the push fails. -/
theorem callPushesTheReturnAddress : Obligations.CallPushesTheReturnAddress := by
  refine fun nnn => ⟨decode_encode (i := .call nnn) rfl, fun s => ⟨fun hsp => ?_, exec_call_of_full⟩⟩
  obtain ⟨u, hpush⟩ := s.exists_push? hsp (s.pc + 2#16)
  obtain ⟨-, husp, -⟩ := State.push?_eq_some hpush
  refine ⟨_, exec_call_of_push? hpush, toNat_zextAddr nnn, husp, fun k hk => State.stack_of_push? hpush hk, ?_⟩
  exact ((onlyChanges_of_push? hpush).mono (Set.union_subset_union_left _ (Set.subset_insert _ _))).setPc
    (.inl (.inl rfl)) _

/-- Settles O11: on a stack that is not empty the return is a pop and a `State.setPc`, on an empty one the pop fails. -/
theorem returnPopsTheTopEntry : Obligations.ReturnPopsTheTopEntry := by
  refine ⟨decode_encode (i := .ret) rfl, fun s => ⟨fun hsp => ?_, exec_ret_of_empty⟩⟩
  obtain ⟨w, u, hpop⟩ := State.exists_pop? hsp
  obtain ⟨-, -, husp, -⟩ := State.pop?_eq_some hpop
  refine ⟨_, exec_ret_of_pop? hpop, fun k hk => State.stack_of_pop? hpop hk, husp, ?_⟩
  exact ((onlyChanges_of_pop? hpop).mono (Set.subset_insert _ _)).setPc (.inl rfl) _

/-- A call commits only below sixteen entries. -/
theorem sp_lt_of_exec_call (h : exec (.call nnn) s = .next t) : s.sp.val < 16 := by
  obtain ⟨u, hpush, -⟩ := execCall_eq_next h
  obtain ⟨hsp, -⟩ := State.push?_eq_some hpush
  exact hsp

/-- Settles O12, from the contracts of the call (O10) and of the return (O11) alone: the return reads the entry the call
wrote, and the frames of both leave the entries below it. -/
theorem returnComesBackAfterTheCall : Obligations.ReturnComesBackAfterTheCall := by
  intro s t t' nnn hcall hstack hsp
  have hlt := sp_lt_of_exec_call hcall
  obtain ⟨_, hcommit, -, htsp, hpushed, hcallFrame⟩ := ((callPushesTheReturnAddress nnn).2 s).1 hlt
  obtain rfl := Host.Outcome.next.inj (hcall.symm.trans hcommit)
  have ht'sp : t'.sp.val = s.sp.val + 1 := by rw [hsp, htsp]
  obtain ⟨u, hret, hpc, husp, hretFrame⟩ := (returnPopsTheTopEntry.2 t').1 (by omega)
  refine ⟨u, hret, ?pc, Fin.ext (by omega), fun k hk => ?entry, hretFrame⟩
  case pc => rw [hpc ⟨s.sp.val, hlt⟩ ht'sp.symm, hstack, hpushed _ rfl]
  case entry =>
    have hret_k : u.stack[k] = t'.stack[k] := hretFrame (.stackEntry k) (by simp)
    have hcall_k : t.stack[k] = s.stack[k] := hcallFrame (.stackEntry k) (by simpa using hk.ne)
    rw [hret_k, hstack, hcall_k]

/-! ### A step that ends where it began -/

/-- From a state that its step leaves as it is, every number of steps ends there and nowhere else. -/
theorem stepsTo_iff_of_step_eq_self (h : step s = .next s) (k : Nat) (t : State) : StepsTo k s t ↔ t = s := by
  induction k with
  | zero => exact Iff.rfl
  | succ k ih =>
    constructor
    · rintro ⟨u, hu, hrest⟩
      obtain rfl := Host.Outcome.next.inj (h.symm.trans hu)
      exact ih.1 hrest
    · exact fun ht => ⟨s, h, ih.2 ht⟩

/-- What the end of a program is (R205 b): PC holds `1nnn` with `nnn = PC`. -/
theorem exists_jp_of_selfJump (h : s.selfJump = true) :
    ∃ op nnn, s.fetch? = some op ∧ decode op = .ok (.jp nnn) ∧ zextAddr nnn = s.pc := by
  unfold State.selfJump at h
  split at h
  · cases h
  · split at h
    · exact ⟨_, _, ‹_›, ‹_›, eq_of_beq h⟩
    · cases h

theorem step_eq_self_of_selfJump (h : s.selfJump = true) : step s = .next s := by
  obtain ⟨op, nnn, hfetch, hdecode, hpc⟩ := exists_jp_of_selfJump h
  rw [step_eq_exec hfetch hdecode, exec_jp, hpc]
  rfl

/-- Settles O13: the jump sets PC to what it was, so the step leaves the state as it is. -/
theorem selfJumpRepeatsForever : Obligations.SelfJumpRepeatsForever :=
  fun _ h => ⟨⟨_, step_eq_self_of_selfJump h⟩, stepsTo_iff_of_step_eq_self (step_eq_self_of_selfJump h)⟩

end Sys2Proof.Machine

/-! SUPPORT. Conditional skips on registers (spec/42_skips.md R100 to R103): the frame of a skip, and one contract for a
skip on a condition and one for a skip on its negation, which the four instructions share. -/

namespace Sys2Proof.Machine

variable {s : State} {c : Bool} {p : Prop} [Decidable p]

/-! ### What a skip does -/

/-- Both ways of a skip set PC and nothing else. -/
theorem onlyChanges_skipIf (s : State) (c : Bool) : OnlyChanges s (s.skipIf c) {.pc} := by
  cases c with
  | true => exact onlyChanges_setPc s (s.pc + 4#16)
  | false => exact onlyChanges_setPc s (s.pc + 2#16)

theorem exists_commit_skipIf (hc : c = true ↔ p) :
    ∃ t, commit (s.skipIf c) = .next t ∧ t.pc = (if p then s.pc + 4#16 else s.pc + 2#16) ∧ OnlyChanges s t {.pc} :=
  ⟨_, rfl, State.skipIf_pc_eq_skipPc hc, onlyChanges_skipIf s c⟩

/-- The same skip on a negated condition, its branches in the order of the condition itself. -/
theorem exists_commit_skipIf_not (hc : c = true ↔ ¬p) :
    ∃ t, commit (s.skipIf c) = .next t ∧ t.pc = (if p then s.pc + 2#16 else s.pc + 4#16) ∧ OnlyChanges s t {.pc} := by
  rw [← ite_not]
  exact exists_commit_skipIf hc

/-! ### The four skips (R100 to R103) -/

theorem exec_seImm (x : Reg) (nn : Byte) (s : State) :
    exec (.seImm x nn) s = commit (s.skipIf (s.reg x == nn)) := rfl

theorem exec_sneImm (x : Reg) (nn : Byte) (s : State) :
    exec (.sneImm x nn) s = commit (s.skipIf (s.reg x != nn)) := rfl

theorem exec_seReg (x y : Reg) (s : State) :
    exec (.seReg x y) s = commit (s.skipIf (s.reg x == s.reg y)) := rfl

theorem exec_sneReg (x y : Reg) (s : State) :
    exec (.sneReg x y) s = commit (s.skipIf (s.reg x != s.reg y)) := rfl

/-- Settles O14: 3xnn is a skip on `V[x] = nn`, 4xnn a skip on its negation. -/
theorem skipsCompareWithTheImmediate : Obligations.SkipsCompareWithTheImmediate := by
  refine fun x nn => ⟨decode_encode (i := .seImm x nn) rfl, decode_encode (i := .sneImm x nn) rfl, fun s => ⟨?_, ?_⟩⟩
  · rw [exec_seImm]
    exact exists_commit_skipIf beq_iff_eq
  · rw [exec_sneImm]
    exact exists_commit_skipIf_not bne_iff_ne

/-- Settles O15: 5xy0 is a skip on `V[x] = V[y]`, 9xy0 a skip on its negation. -/
theorem skipsCompareTwoRegisters : Obligations.SkipsCompareTwoRegisters := by
  refine fun x y => ⟨decode_encode (i := .seReg x y) rfl, decode_encode (i := .sneReg x y) rfl, fun s => ⟨?_, ?_⟩⟩
  · rw [exec_seReg]
    exact exists_commit_skipIf beq_iff_eq
  · rw [exec_sneReg]
    exact exists_commit_skipIf_not bne_iff_ne

end Sys2Proof.Machine

/-! SUPPORT. Register loads, logic, addition and subtraction (spec/43_register_alu.md R110 to R117, R119): the frame of a
register write, and one contract for each of the two shapes the instructions have, a register written and a register
written before the flag. -/

namespace Sys2Proof.Machine

variable {s t : State} {parts : Set Part}

/-! ### Frames -/

/-- Writing a register adds nothing to a frame that already lets that register change. -/
theorem OnlyChanges.setReg {r : Reg} (h : OnlyChanges s t parts) (hr : .reg r ∈ parts) (b : Byte) :
    OnlyChanges s (t.setReg r b) parts := by
  intro p hp
  cases p with
  | reg q =>
    have hq : q ≠ r := fun hqr => hp (hqr ▸ hr)
    exact (t.reg_setReg r q b).trans (if_neg hq) |>.trans (h (.reg q) hp)
  | _ => exact h _ hp

theorem OnlyChanges.advance (h : OnlyChanges s t parts) (hpc : .pc ∈ parts) : OnlyChanges s t.advance parts :=
  h.setPc hpc _

/-! ### The two shapes of a meaning -/

/-- A register written, then `next`. -/
theorem setReg_advance_spec (s : State) (x : Reg) (b : Byte) :
    (s.setReg x b).advance.reg x = b ∧ (s.setReg x b).advance.pc = s.pc + 2#16 ∧
    OnlyChanges s (s.setReg x b).advance {.pc, .reg x} :=
  ⟨s.reg_setReg_same x b, rfl, ((OnlyChanges.refl s _).setReg (by simp) b).advance (by simp)⟩

/-- A register written, then the flag, then `next`: the flag is what stays where the register is VF (R86). -/
theorem setReg_setFlag_advance_spec (s : State) (x : Reg) (b f : Byte) :
    (x ≠ 15 → ((s.setReg x b).setReg .vf f).advance.reg x = b) ∧
    ((s.setReg x b).setReg .vf f).advance.reg 15 = f ∧
    ((s.setReg x b).setReg .vf f).advance.pc = s.pc + 2#16 ∧
    OnlyChanges s ((s.setReg x b).setReg .vf f).advance {.pc, .reg x, .reg 15} := by
  refine ⟨fun hx => ?value, State.reg_setReg_same _ 15 f, rfl, ?frame⟩
  case value => rw [State.reg_advance, State.reg_setReg, if_neg hx, State.reg_setReg_same]
  case frame => exact (((OnlyChanges.refl s _).setReg (by simp) b).setReg (by simp) f).advance (by simp)

/-! ### Loads (R110, R112) -/

theorem exec_ldImm (x : Reg) (nn : Byte) (s : State) : exec (.ldImm x nn) s = .next (s.setReg x nn).advance := rfl

theorem exec_ldReg (x y : Reg) (s : State) : exec (.ldReg x y) s = .next (s.setReg x (s.reg y)).advance := rfl

/-- Settles O16: each load is one register written. -/
theorem loadsSetOneRegister : Obligations.LoadsSetOneRegister :=
  fun x y nn => ⟨decode_encode (i := .ldImm x nn) rfl, decode_encode (i := .ldReg x y) rfl, fun s =>
    ⟨⟨_, exec_ldImm x nn s, setReg_advance_spec s x nn⟩, ⟨_, exec_ldReg x y s, setReg_advance_spec s x (s.reg y)⟩⟩⟩

/-! ### Logic (R113 to R115) -/

theorem exec_orReg (x y : Reg) (s : State) :
    exec (.orReg x y) s = .next (s.setReg x (s.reg x ||| s.reg y)).advance := rfl

theorem exec_andReg (x y : Reg) (s : State) :
    exec (.andReg x y) s = .next (s.setReg x (s.reg x &&& s.reg y)).advance := rfl

theorem exec_xorReg (x y : Reg) (s : State) :
    exec (.xorReg x y) s = .next (s.setReg x (s.reg x ^^^ s.reg y)).advance := rfl

/-- An instruction that writes `b` to `V[x]`, where every bit of `b` is the given function of the two old bits. -/
theorem exists_next_bitwise {i : Instr} {x y : Reg} {b : Byte} {bit : Bool → Bool → Bool}
    (hexec : exec i s = .next (s.setReg x b).advance)
    (hbit : ∀ k, b.getLsbD k = bit ((s.reg x).getLsbD k) ((s.reg y).getLsbD k)) :
    ∃ t, exec i s = .next t ∧ (∀ k, (t.reg x).getLsbD k = bit ((s.reg x).getLsbD k) ((s.reg y).getLsbD k)) ∧
      t.pc = s.pc + 2#16 ∧ OnlyChanges s t {.pc, .reg x} := by
  obtain ⟨hreg, hrest⟩ := setReg_advance_spec s x b
  exact ⟨_, hexec, fun k => by rw [hreg, hbit], hrest⟩

/-- Settles O17: each of the three is one register written, with the bits that the library gives for its operator. -/
theorem logicCombinesBitByBit : Obligations.LogicCombinesBitByBit := by
  refine fun x y => ⟨decode_encode (i := .orReg x y) rfl, decode_encode (i := .andReg x y) rfl,
    decode_encode (i := .xorReg x y) rfl, fun s => ⟨?or, ?and, ?xor⟩⟩
  case or => exact exists_next_bitwise (bit := or) (exec_orReg x y s) fun _ => BitVec.getLsbD_or
  case and => exact exists_next_bitwise (bit := and) (exec_andReg x y s) fun _ => BitVec.getLsbD_and
  case xor => exact exists_next_bitwise (bit := bne) (exec_xorReg x y s) fun _ => BitVec.getLsbD_xor

/-! ### Addition and subtraction (R116, R117, R119) -/

theorem exec_addReg (x y : Reg) (s : State) : exec (.addReg x y) s =
    .next ((s.setReg x (s.reg x + s.reg y)).setReg .vf (carryFlag (s.reg x) (s.reg y))).advance := rfl

theorem exec_subReg (x y : Reg) (s : State) : exec (.subReg x y) s =
    .next ((s.setReg x (s.reg x - s.reg y)).setReg .vf (noBorrowFlag (s.reg x) (s.reg y))).advance := rfl

theorem exec_subnReg (x y : Reg) (s : State) : exec (.subnReg x y) s =
    .next ((s.setReg x (s.reg y - s.reg x)).setReg .vf (noBorrowFlag (s.reg y) (s.reg x))).advance := rfl

theorem carryFlag_eq_ite (a b : Byte) : carryFlag a b = if a.toNat + b.toNat > 255 then 1#8 else 0#8 := by
  simp [carryFlag, flagByte]

/-- The flag of `a - b` is 0 exactly when the subtrahend exceeds the minuend. -/
theorem noBorrowFlag_eq_ite (a b : Byte) : noBorrowFlag a b = if b.toNat > a.toNat then 0#8 else 1#8 := by
  rw [← ite_not]
  simp [noBorrowFlag, flagByte]

/-- A byte difference, with the modulus added before the subtrahend is taken away. -/
theorem toNat_sub_byte (a b : Byte) : (a - b).toNat = (256 + a.toNat - b.toNat) % 256 := by
  rw [BitVec.toNat_sub]
  omega

/-- Settles O19: the sum is written first and the carry after it. -/
theorem addRegistersSetsTheCarry : Obligations.AddRegistersSetsTheCarry := by
  refine fun x y => ⟨decode_encode (i := .addReg x y) rfl, fun s => ?_⟩
  obtain ⟨hvalue, hflag, hrest⟩ :=
    setReg_setFlag_advance_spec s x (s.reg x + s.reg y) (carryFlag (s.reg x) (s.reg y))
  refine ⟨_, exec_addReg x y s, fun hx => ?value, ?flag, hrest⟩
  case value => rw [hvalue hx, BitVec.toNat_add]
  case flag => rw [hflag, carryFlag_eq_ite]

/-- An instruction that writes `a - b` to `V[x]` and then NOT borrow to VF. -/
theorem exists_next_subtract {i : Instr} {x : Reg} {a b : Byte}
    (hexec : exec i s = .next ((s.setReg x (a - b)).setReg .vf (noBorrowFlag a b)).advance) :
    ∃ t, exec i s = .next t ∧ (x ≠ 15 → (t.reg x).toNat = (256 + a.toNat - b.toNat) % 256) ∧
      t.reg 15 = (if b.toNat > a.toNat then 0#8 else 1#8) ∧ t.pc = s.pc + 2#16 ∧
      OnlyChanges s t {.pc, .reg x, .reg 15} := by
  obtain ⟨hvalue, hflag, hrest⟩ := setReg_setFlag_advance_spec s x (a - b) (noBorrowFlag a b)
  refine ⟨_, hexec, fun hx => ?value, ?flag, hrest⟩
  case value => rw [hvalue hx, toNat_sub_byte]
  case flag => rw [hflag, noBorrowFlag_eq_ite]

/-- Settles O20: 8xy5 and 8xy7 are the same subtraction with the operands exchanged. -/
theorem subtractSetsNotBorrow : Obligations.SubtractSetsNotBorrow :=
  fun x y => ⟨decode_encode (i := .subReg x y) rfl, decode_encode (i := .subnReg x y) rfl, fun s =>
    ⟨exists_next_subtract (exec_subReg x y s), exists_next_subtract (exec_subnReg x y s)⟩⟩

end Sys2Proof.Machine

/-! SUPPORT. Index register, loads and stores (spec/44_index_memory.md R130, R133 to R135): the frames of a write to I,
of a store and of a register load, the bound check on the last address of an access, and one contract for each of the
three shapes of a meaning that the instructions have. -/

namespace Sys2Proof.Machine

variable {s t : State} {parts : Set Part} {bs : List Byte} {base k : Nat}

/-! ### Frames -/

theorem OnlyChanges.setI (h : OnlyChanges s t parts) (hi : .index ∈ parts) (w : Word) :
    OnlyChanges s (t.setI w) parts := by
  intro p hp
  cases p with
  | index => exact absurd hi hp
  | _ => exact h _ hp

theorem byte_mem_bytesFrom {a n : Nat} : .byte a ∈ bytesFrom base n ↔ base ≤ a ∧ a < base + n := by
  constructor
  · rintro ⟨k, hk, ha⟩
    obtain rfl := Part.byte.inj ha
    omega
  · rintro ⟨hle, hlt⟩
    exact ⟨a - base, by omega, congrArg Part.byte (Nat.add_sub_of_le hle).symm⟩

/-- A store adds nothing to a frame that already lets its whole range change. -/
theorem OnlyChanges.storeBytes (h : OnlyChanges s t parts) (hbytes : bytesFrom base bs.length ⊆ parts) :
    OnlyChanges s (t.storeBytes base bs) parts := by
  intro p hp
  cases p with
  | byte a =>
    have hout : ¬(base ≤ a ∧ a < base + bs.length) := fun hin => hp (hbytes (byte_mem_bytesFrom.2 hin))
    exact (t.byte_storeBytes_outside (by omega)).trans (h (.byte a) hp)
  | _ => exact h _ hp

/-- A load of registers V0 up adds nothing to a frame that already lets those registers change. -/
theorem OnlyChanges.setRegList (h : OnlyChanges s t parts) (hregs : ∀ r : Reg, r.val < bs.length → .reg r ∈ parts) :
    OnlyChanges s (t.setRegList bs) parts := by
  intro p hp
  cases p with
  | reg r =>
    have hr : bs.length ≤ r.val := Nat.not_lt.1 fun hlt => hp (hregs r hlt)
    rw [Unchanged, State.reg_setRegList, List.getD_eq_default _ _ hr]
    exact h (.reg r) hp
  | _ => exact h _ hp

/-! ### The bound check, by the last address (R43) -/

theorem withRange_succ_ok {go : Host.Outcome State Fault Refusal} (h : base + k ≤ 0xFFF) :
    withRange base (k + 1) go = go :=
  withRange_ok (.inr (by omega))

theorem withRange_succ_fails {go : Host.Outcome State Fault Refusal} (h : base + k > 0xFFF) :
    withRange base (k + 1) go = .fault .outOfBounds :=
  withRange_fails k.succ_ne_zero (by omega)

/-! ### The three shapes of a meaning -/

/-- I written, then `next`. -/
theorem setI_advance_spec (s : State) (w : Word) :
    (s.setI w).advance.ireg = w ∧ (s.setI w).advance.pc = s.pc + 2#16 ∧
    OnlyChanges s (s.setI w).advance {.pc, .index} :=
  ⟨rfl, rfl, ((OnlyChanges.refl s _).setI (by simp) w).advance (by simp)⟩

/-- Bytes stored under the bound check, where they fit, then `next`. -/
theorem exists_next_checkedStore (hw : s.mem.wf) (hlen : bs.length = k + 1) (hfits : base + k ≤ 0xFFF) :
    ∃ t, withRange base (k + 1) (commit (s.storeBytes base bs).advance) = .next t ∧
      (∀ j (hj : j < k + 1), t.byte (base + j) = bs[j]'(hlen ▸ hj)) ∧
      t.pc = s.pc + 2#16 ∧ OnlyChanges s t ({.pc} ∪ bytesFrom base (k + 1)) := by
  have hb : base + bs.length ≤ Config.memSize := hlen ▸ Nat.succ_le_succ hfits
  refine ⟨_, withRange_succ_ok hfits, fun j hj => s.byte_storeBytes_inside hw hb (hlen ▸ hj), rfl, ?_⟩
  rw [← hlen]
  exact ((OnlyChanges.refl s _).storeBytes Set.subset_union_right).advance (.inl rfl)

/-- `V[0]` to `V[x]` loaded from memory, then `next`. -/
theorem setRegList_loadBytes_advance_spec (s : State) (base : Nat) (x : Reg) :
    (∀ k : Reg, k ≤ x → (s.setRegList (s.loadBytes base (x.val + 1))).advance.reg k = s.byte (base + k.val)) ∧
    (s.setRegList (s.loadBytes base (x.val + 1))).advance.pc = s.pc + 2#16 ∧
    OnlyChanges s (s.setRegList (s.loadBytes base (x.val + 1))).advance ({.pc} ∪ regsUpTo x) := by
  refine ⟨fun k hk => ?loaded, rfl, ?frame⟩
  case loaded =>
    have hbyte : (s.loadBytes base (x.val + 1))[k.val]? = some (s.byte (base + k.val)) :=
      Memory.getElem?_readList (Nat.lt_succ_of_le hk)
    rw [State.reg_advance, State.reg_setRegList, List.getD_eq_getElem?_getD, hbyte, Option.getD_some]
  case frame =>
    refine ((OnlyChanges.refl s _).setRegList fun r hr => .inr ⟨r, ?_, rfl⟩).advance (.inl rfl)
    rw [State.loadBytes, Memory.length_readList] at hr
    exact Nat.le_of_lt_succ hr

/-! ### Index load (R130) -/

theorem exec_ldI (nnn : Addr12) (s : State) : exec (.ldI nnn) s = .next (s.setI (zextAddr nnn)).advance := rfl

/-- Settles O23: one write to I, of the zero-extended address. -/
theorem loadIndexSetsI : Obligations.LoadIndexSetsI := by
  refine fun nnn => ⟨decode_encode (i := .ldI nnn) rfl, fun s => ?_⟩
  obtain ⟨hindex, hrest⟩ := setI_advance_spec s (zextAddr nnn)
  exact ⟨_, exec_ldI nnn s, by rw [hindex, toNat_zextAddr], hrest⟩

/-! ### Decimal digits (R133) -/

theorem exec_ldB (x : Reg) (s : State) : exec (.ldB x) s =
    withRange s.ireg.toNat (2 + 1) (commit (s.storeBytes s.ireg.toNat (bcdDigits (s.reg x))).advance) := rfl

/-- Each of the three digits of a byte fits a byte. -/
theorem exists_bcdDigits_eq (b : Byte) : ∃ hundreds tens ones, bcdDigits b = [hundreds, tens, ones] ∧
    hundreds.toNat = b.toNat / 100 ∧ tens.toNat = b.toNat / 10 % 10 ∧ ones.toNat = b.toNat % 10 := by
  have hb := b.isLt
  refine ⟨_, _, _, rfl, ?_, ?_, ?_⟩ <;> rw [BitVec.toNat_ofNat] <;> omega

/-- Settles O26: a checked store of the three digits. -/
theorem decimalDigitsAreStoredAtI : Obligations.DecimalDigitsAreStoredAtI := by
  refine fun x => ⟨decode_encode (i := .ldB x) rfl, fun s hw => ?_⟩
  obtain ⟨hundreds, tens, ones, hdigits, hhundreds, htens, hones⟩ := exists_bcdDigits_eq (s.reg x)
  rw [exec_ldB, hdigits, ← hhundreds, ← htens, ← hones]
  refine ⟨fun hfits => ?_, withRange_succ_fails⟩
  obtain ⟨t, hcommit, hstored, hrest⟩ := exists_next_checkedStore (bs := [hundreds, tens, ones]) (k := 2) hw rfl hfits
  exact ⟨t, hcommit, congrArg BitVec.toNat (hstored 0 (by decide)), congrArg BitVec.toNat (hstored 1 (by decide)),
    congrArg BitVec.toNat (hstored 2 (by decide)), hrest⟩

/-! ### Register stores and loads (R134, R135) -/

theorem exec_storeRegs (x : Reg) (s : State) : exec (.storeRegs x) s =
    withRange s.ireg.toNat (x.val + 1) (commit (s.storeBytes s.ireg.toNat (s.regList (x.val + 1))).advance) := rfl

theorem exec_loadRegs (x : Reg) (s : State) : exec (.loadRegs x) s =
    withRange s.ireg.toNat (x.val + 1) (commit (s.setRegList (s.loadBytes s.ireg.toNat (x.val + 1))).advance) := rfl

/-- Settles O27: a checked store of the register list, whose byte `k` is `V[k]`. -/
theorem registersAreStoredFromI : Obligations.RegistersAreStoredFromI := by
  refine fun x => ⟨decode_encode (i := .storeRegs x) rfl, fun s hw => ?_⟩
  rw [exec_storeRegs]
  refine ⟨fun hfits => ?_, withRange_succ_fails⟩
  obtain ⟨t, hcommit, hstored, hrest⟩ := exists_next_checkedStore hw (s.length_regList x.isLt) hfits
  exact ⟨t, hcommit, fun k hk => (hstored k (Nat.lt_succ_of_le hk)).trans
    (s.getElem_regList x.isLt (Nat.lt_succ_of_le hk)), hrest⟩

/-- Settles O28: a checked register load. -/
theorem registersAreLoadedFromI : Obligations.RegistersAreLoadedFromI := by
  refine fun x => ⟨decode_encode (i := .loadRegs x) rfl, fun s => ?_⟩
  rw [exec_loadRegs]
  exact ⟨fun hfits => ⟨_, withRange_succ_ok hfits, setRegList_loadBytes_advance_spec s s.ireg.toNat x⟩,
    withRange_succ_fails⟩

end Sys2Proof.Machine

/-! SUPPORT. The delay timer (spec/46_keypad_timers.md R152, R154): the frame of a write to DT, and what the read and the
write of it do. -/

namespace Sys2Proof.Machine

variable {s t : State} {parts : Set Part}

/-- Writing DT adds nothing to a frame that already lets DT change. -/
theorem OnlyChanges.setDt (h : OnlyChanges s t parts) (hdt : .dt ∈ parts) (b : Byte) :
    OnlyChanges s (t.setDt b) parts := by
  intro p hp
  cases p with
  | dt => exact absurd hdt hp
  | _ => exact h _ hp

/-- DT written, then `next`. -/
theorem setDt_advance_spec (s : State) (b : Byte) :
    (s.setDt b).advance.dt = b ∧ (s.setDt b).advance.pc = s.pc + 2#16 ∧
    OnlyChanges s (s.setDt b).advance {.pc, .dt} :=
  ⟨rfl, rfl, ((OnlyChanges.refl s _).setDt (by simp) b).advance (by simp)⟩

theorem exec_ldVxDt (x : Reg) (s : State) : exec (.ldVxDt x) s = .next (s.setReg x s.dt).advance := rfl

theorem exec_ldDtVx (x : Reg) (s : State) : exec (.ldDtVx x) s = .next (s.setDt (s.reg x)).advance := rfl

/-- Settles O35: Fx07 is one register written, with DT; Fx15 is DT written, with the register. -/
theorem delayTimerIsReadAndSet : Obligations.DelayTimerIsReadAndSet :=
  fun x => ⟨decode_encode (i := .ldVxDt x) rfl, decode_encode (i := .ldDtVx x) rfl, fun s =>
    ⟨⟨_, exec_ldVxDt x s, setReg_advance_spec s x s.dt⟩, ⟨_, exec_ldDtVx x s, setDt_advance_spec s (s.reg x)⟩⟩⟩

end Sys2Proof.Machine

/-! SUPPORT. The failure table of spec/60_exceptions.md (R160 to R164) as one relation between an outcome and the
table's answer: it holds of every instruction, of the step and of every transaction. -/

namespace Sys2Proof.Machine

variable {s t u : State} {tr : Transaction} {f : Fault} {o : Host.Outcome State Fault Refusal} {c : Prop} [Decidable c]

/-- An outcome ends as the failure table says: it commits where the table gives no failure, and fails with the kind that
the table gives. -/
def EndsAs (o : Host.Outcome State Fault Refusal) : Option Fault → Prop
  | none => ∃ t, o = .next t
  | some f => o = .fault f

/-- A row of the table with one condition. -/
theorem endsAs_ite (hfails : c → o = .fault f) (hcommits : ¬c → ∃ t, o = .next t) :
    EndsAs o (if c then some f else none) := by
  split
  · exact hfails ‹_›
  · exact hcommits ‹_›

/-- The table names the fault of an outcome exactly. -/
theorem EndsAs.eq_fault_iff {failure : Option Fault} (h : EndsAs o failure) : o = .fault f ↔ failure = some f := by
  cases failure with
  | none =>
    obtain ⟨t, rfl⟩ := h
    exact ⟨nofun, nofun⟩
  | some g =>
    rw [show o = .fault g from h, Host.Outcome.fault.injEq, Option.some.injEq]

/-! ### Instructions -/

theorem exec_skp_of_key? {x : Reg} {pressed : Bool} (h : s.key? (s.reg x).toNat = some pressed) :
    exec (.skp x) s = .next (s.skipIf pressed) := by
  simp only [exec, execSkp, h, commit]

theorem exec_sknp_of_key? {x : Reg} {pressed : Bool} (h : s.key? (s.reg x).toNat = some pressed) :
    exec (.sknp x) s = .next (s.skipIf !pressed) := by
  simp only [exec, execSknp, h, commit]

theorem exec_skp_of_no_key {x : Reg} (h : (s.reg x).toNat > 15) : exec (.skp x) s = .fault .invalidKeyIndex := by
  simp only [exec, execSkp, State.key?_eq_none.2 h, raise]

theorem exec_sknp_of_no_key {x : Reg} (h : (s.reg x).toNat > 15) : exec (.sknp x) s = .fault .invalidKeyIndex := by
  simp only [exec, execSknp, State.key?_eq_none.2 h, raise]

/-- The wait commits whether or not a key is pressed (R153). -/
theorem exists_next_ldVxK (x : Reg) (s : State) : ∃ t, exec (.ldVxK x) s = .next t := by
  simp only [exec, execLdVxK]
  split
  · exact ⟨_, rfl⟩
  · exact ⟨_, rfl⟩

theorem exec_addI (x : Reg) (s : State) : exec (.addI x) s =
    if s.ireg.toNat + (s.reg x).toNat > 0xFFFF then .fault .outOfBounds
    else .next (s.setI (BitVec.ofNat 16 (s.ireg.toNat + (s.reg x).toNat))).advance := rfl

/-- A committing access of `k + 1` bytes at I fails exactly where its last byte leaves memory (R43). -/
theorem withRange_succ_endsAs (base k : Nat) (u : State) :
    EndsAs (withRange base (k + 1) (commit u)) (if base + k > 0xFFF then some .outOfBounds else none) :=
  endsAs_ite withRange_succ_fails fun h => ⟨u, withRange_succ_ok (Nat.le_of_not_lt h)⟩

/-- The same check for a sprite, whose `n` rows may be none (R143). -/
theorem withRange_endsAs (base n : Nat) (u : State) :
    EndsAs (withRange base n (commit u)) (if 1 ≤ n ∧ base + n - 1 > 0xFFF then some .outOfBounds else none) :=
  endsAs_ite (fun h => withRange_fails (by omega) (by omega)) fun h => ⟨u, withRange_ok (by omega)⟩

/-- Every instruction ends as its row of the table says. -/
theorem exec_endsAs (i : Instr) (s : State) : EndsAs (exec i s) (failureOf i s) := by
  cases i with
  | cls | jp | seImm | sneImm | seReg | ldImm | addImm | ldReg | orReg | andReg | xorReg | addReg | subReg | shr
  | subnReg | shl | sneReg | ldI | jpV0 | rnd | ldVxDt | ldDtVx | ldStVx | ldF => exact ⟨_, rfl⟩
  | ldVxK x => exact exists_next_ldVxK x s
  | ret =>
    refine endsAs_ite exec_ret_of_empty fun hsp => ?_
    obtain ⟨w, u, hpop⟩ := State.exists_pop? hsp
    exact ⟨_, exec_ret_of_pop? hpop⟩
  | call nnn =>
    refine endsAs_ite exec_call_of_full fun hsp => ?_
    obtain ⟨u, hpush⟩ := s.exists_push? (by omega) (s.pc + 2#16)
    exact ⟨_, exec_call_of_push? hpush⟩
  | drw x y n => exact withRange_endsAs s.base n _
  | ldB => exact withRange_succ_endsAs s.base 2 _
  | storeRegs x | loadRegs x => exact withRange_succ_endsAs s.base x.val _
  | addI x =>
    rw [exec_addI]
    exact endsAs_ite (fun h => if_pos h) fun h => ⟨_, if_neg h⟩
  | skp x => exact endsAs_ite exec_skp_of_no_key fun h => ⟨_, exec_skp_of_key? (s.key?_of_lt (by omega))⟩
  | sknp x => exact endsAs_ite exec_sknp_of_no_key fun h => ⟨_, exec_sknp_of_key? (s.key?_of_lt (by omega))⟩

/-! ### The step (R164) -/

theorem step_of_decode_error {op : Word} {e : DecodeError} (hfetch : s.fetch? = some op)
    (hdecode : decode op = .error e) : step s = .fault .invalidOpcode := by
  simp only [step, hfetch, hdecode, raise]

/-- The step ends as the table's rows say in the order fetch bound, opcode, instruction. -/
theorem step_endsAs (s : State) : EndsAs (step s) (stepFailure s) := by
  unfold stepFailure
  split
  · exact step_of_pc_outside ‹_›
  · have hfetch := s.fetch?_ok (by omega)
    rw [← toNat_opcodeOfBytes, BitVec.ofNat_toNat, BitVec.setWidth_eq]
    split
    · exact step_of_decode_error hfetch ‹_›
    · rw [step_eq_exec hfetch ‹_›]
      exact exec_endsAs _ s

/-! ### Transactions (R160, R161) -/

/-- An index outside 0 to 15, a negative one included, names no key. -/
theorem setKey_of_outside {index : Int} (h : index < 0 ∨ index > 15) (pressed : Bool) (s : State) :
    setKey index pressed s = .fault .invalidKeyIndex :=
  dif_neg (by omega)

/-- An index that names key `k` writes that key alone. -/
theorem setKey_natCast (k : Fin 16) (pressed : Bool) (s : State) :
    setKey (k.val : Int) pressed s = .next { s with key := s.key.set k.val pressed } :=
  dif_pos (by omega)

/-- Every transaction ends as the table says. -/
theorem transact_endsAs (tr : Transaction) (s : State) : EndsAs (transact tr s) (transactionFailure tr s) := by
  cases tr with
  | reset | tickTimers | ackDirty => exact ⟨_, rfl⟩
  | step => exact step_endsAs s
  | load rom =>
    exact endsAs_ite (fun h => if_pos h) fun h => ⟨_, transact_load_of_fits (Nat.le_of_not_lt h) s⟩
  | setKey index pressed =>
    refine endsAs_ite (fun h => setKey_of_outside h pressed s) fun h => ?_
    obtain ⟨k, rfl⟩ := Int.eq_ofNat_of_zero_le (show 0 ≤ index by omega)
    exact ⟨_, setKey_natCast ⟨k, by omega⟩ pressed s⟩

/-- A transaction that fails answers its kind in the state before it, with no event. -/
theorem perform_of_transact_eq_fault (h : transact tr s = .fault f) :
    perform tr s = { state := s, status := .failed f, event := none } := by
  rw [perform, h]

/-- Settles O45: every transaction ends as the table says, and `perform` answers a commit with Ok and a failure with the
unchanged state. -/
theorem failedTransactionsChangeNothing : Obligations.FailedTransactionsChangeNothing := by
  intro tr s
  have hends := transact_endsAs tr s
  refine ⟨fun hnone => ?commits, fun f hsome => ?fails⟩
  case commits =>
    rw [hnone] at hends
    obtain ⟨u, hu⟩ := hends
    rw [perform_of_transact_eq_next hu]
  case fails => exact perform_of_transact_eq_fault (hends.eq_fault_iff.2 hsome)

end Sys2Proof.Machine

/-! SUPPORT. Ticks, key changes and acknowledgements (spec/60_exceptions.md R170 to R172): what each does, the frame of
each, and a run of ticks. -/

namespace Sys2Proof.Machine

variable {s t u : State} {parts : Set Part}

/-! ### Frames -/

/-- Writing ST adds nothing to a frame that already lets ST change. -/
theorem OnlyChanges.setSt (h : OnlyChanges s t parts) (hst : .st ∈ parts) (b : Byte) :
    OnlyChanges s (t.setSt b) parts := by
  intro p hp
  cases p with
  | st => exact absurd hst hp
  | _ => exact h _ hp

theorem onlyChanges_tickTimers (s : State) : OnlyChanges s (tickTimers s) {.dt, .st} :=
  ((OnlyChanges.refl s _).setDt (by simp) _).setSt (by simp) _

/-- Writing one key leaves the other keys and everything else. -/
theorem onlyChanges_setKey (s : State) (k : Fin 16) (pressed : Bool) :
    OnlyChanges s { s with key := s.key.set k.val pressed } {.key k} := by
  intro p hp
  cases p with
  | key j =>
    have hne : k.val ≠ j.val := fun h => hp (congrArg Part.key (Fin.ext h.symm))
    exact Vector.getElem_set_ne k.isLt j.isLt hne
  | _ => rfl

/-- Another keypad is a change of keys alone. -/
theorem onlyChanges_keypad (s : State) (key : Vector Bool 16) : OnlyChanges s { s with key := key } keypad := by
  intro p hp
  cases p with
  | key k => exact absurd ⟨k, rfl⟩ hp
  | _ => rfl

theorem onlyChanges_ackDirty (s : State) : OnlyChanges s (ackDirty s) {.dirty} := by
  intro p hp
  cases p with
  | dirty => exact absurd rfl hp
  | _ => rfl

/-! ### One tick (R170) -/

theorem toNat_tickDown (b : Byte) : (tickDown b).toNat = b.toNat - 1 := by
  by_cases hb : b = 0
  · rw [tickDown, if_pos hb, hb]
    rfl
  · rw [tickDown, if_neg hb]
    bv_omega

theorem toNat_dt_tickTimers (s : State) : (tickTimers s).dt.toNat = s.dt.toNat - 1 := toNat_tickDown s.dt

theorem toNat_st_tickTimers (s : State) : (tickTimers s).st.toNat = s.st.toNat - 1 := toNat_tickDown s.st

theorem State.beep_iff : s.beep = true ↔ s.st.toNat ≠ 0 := by
  rw [State.beep, bne_iff_ne, BitVec.toNat_ne_iff_ne.symm]
  rfl

/-- The falling edge of BEEP (R18). -/
theorem beepEdge_of_falls (hs : s.beep = true) (ht : t.beep = false) : beepEdge s t = some .stopBeep := by
  rw [beepEdge, hs, ht]

/-- No edge where BEEP keeps its level (R18). -/
theorem beepEdge_of_same (h : s.beep = t.beep) : beepEdge s t = none := by
  rw [beepEdge, h]
  cases t.beep <;> rfl

/-- A tick ends the beep exactly where it takes ST from 1 to 0. -/
theorem beepEdge_tickTimers (s : State) :
    beepEdge s (tickTimers s) = if s.st.toNat = 1 then some .stopBeep else none := by
  have hst := toNat_st_tickTimers s
  split
  · refine beepEdge_of_falls (State.beep_iff.2 (by omega)) (Bool.eq_false_iff.2 fun h => State.beep_iff.1 h ?_)
    omega
  · refine beepEdge_of_same (Bool.eq_iff_iff.2 ?_)
    rw [State.beep_iff, State.beep_iff]
    omega

theorem perform_tickTimers (s : State) :
    perform .tickTimers s = { state := tickTimers s, status := .ok, event := beepEdge s (tickTimers s) } :=
  perform_of_transact_eq_next rfl

/-- Settles O39: both timers by `toNat_tickDown`, the event as the edge of BEEP that the tick makes. -/
theorem tickCountsBothTimersDown : Obligations.TickCountsBothTimersDown := by
  intro s
  have hone : s.st = 1#8 ↔ s.st.toNat = 1 := BitVec.toNat_inj.symm
  rw [perform_tickTimers, beepEdge_tickTimers]
  exact ⟨rfl, toNat_dt_tickTimers s, toNat_st_tickTimers s, fun h => if_pos (hone.1 h), fun h => if_neg (mt hone.2 h),
    onlyChanges_tickTimers s⟩

/-! ### A run of ticks (R171) -/

theorem runSchedule_ticks_succ (k : Nat) (s : State) : runSchedule (List.replicate (k + 1) .tickTimers) s =
    runSchedule (List.replicate k .tickTimers) (tickTimers s) := rfl

theorem eventsOf_ticks_succ (k : Nat) (s : State) : eventsOf (List.replicate (k + 1) .tickTimers) s =
    (beepEdge s (tickTimers s)).toList ++ eventsOf (List.replicate k .tickTimers) (tickTimers s) := rfl

/-- Settles O40, by induction on the ticks: the first one fires the event where ST is 1 and leaves it to the others
elsewhere. -/
theorem timersRunOutAfterTheirValue : Obligations.TimersRunOutAfterTheirValue := by
  intro s k
  induction k generalizing s with
  | zero => exact ⟨rfl, rfl, (if_neg (by omega)).symm⟩
  | succ k ih =>
    obtain ⟨hdt, hst, hevents⟩ := ih (tickTimers s)
    rw [toNat_dt_tickTimers] at hdt
    rw [toNat_st_tickTimers] at hst hevents
    rw [runSchedule_ticks_succ, eventsOf_ticks_succ, hdt, hst, hevents, beepEdge_tickTimers]
    refine ⟨by omega, by omega, ?_⟩
    by_cases hone : s.st.toNat = 1
    · rw [if_pos hone, if_neg (by omega), if_pos (by omega)]
      rfl
    · rw [if_neg hone]
      exact if_congr (by omega) rfl rfl

/-! ### One key (R172) -/

/-- Settles O41: an index from 0 to 15 is a write of its key, and every other one fails. -/
theorem setKeyWritesOneKey : Obligations.SetKeyWritesOneKey := by
  refine fun s index pressed => ⟨fun k hk => ?inside, fun hout => ?outside⟩
  case inside =>
    subst hk
    rw [perform_of_transact_eq_next (tr := .setKey k.val pressed) (setKey_natCast k pressed s)]
    exact ⟨rfl, Vector.getElem_set_self k.isLt, onlyChanges_setKey s k pressed⟩
  case outside =>
    rw [perform_of_transact_eq_fault (tr := .setKey index pressed) (setKey_of_outside hout pressed s)]
    exact ⟨rfl, rfl⟩

end Sys2Proof.Machine

/-! SUPPORT. A failure is not got past (spec/60_exceptions.md R162): the table's answer for a step reads nothing that
ticks, key changes and acknowledgements write. -/

namespace Sys2Proof.Machine

variable {s t u : State} {tr : Transaction} {f : Fault} {parts : Set Part}

theorem OnlyChanges.trans (h : OnlyChanges s t parts) (h' : OnlyChanges t u parts) : OnlyChanges s u parts := by
  intro p hp
  cases p <;> exact (h' _ hp).trans (h _ hp)

/-- What the transactions other than `step`, `load` and `reset` may write. -/
def besideSteps : Set Part := {.dt, .st, .dirty} ∪ keypad

/-- A state whose step fails keeps all but that frame under every transaction other than `load` and `reset`: the step by
failing, the others by what they write. -/
theorem perform_onlyChanges_of_step_fault (hs : step s = .fault f) (hreset : tr ≠ .reset)
    (hload : ∀ rom, tr ≠ .load rom) : OnlyChanges s (perform tr s).state besideSteps := by
  obtain ⟨u, hcommit, hu⟩ | hsame := perform_cases tr s
  · rw [hu]
    cases tr with
    | step => cases hs.symm.trans hcommit
    | reset => exact absurd rfl hreset
    | load rom => exact absurd rfl (hload rom)
    | tickTimers =>
      rw [eq_of_commit_eq_next hcommit]
      exact (onlyChanges_tickTimers s).mono (by simp [besideSteps, Set.insert_subset_iff])
    | setKey index pressed =>
      obtain ⟨key, rfl⟩ := setKey_eq_next hcommit
      exact (onlyChanges_keypad s key).mono Set.subset_union_right
    | ackDirty =>
      rw [eq_of_commit_eq_next hcommit]
      exact (onlyChanges_ackDirty s).mono (by simp [besideSteps])
  · rw [hsame]
    exact OnlyChanges.refl s _

/-- The table's rows for instructions read SP, I and the registers alone. -/
theorem failureOf_congr (hsp : t.sp = s.sp) (hindex : t.ireg = s.ireg) (hreg : ∀ r, t.reg r = s.reg r) (i : Instr) :
    failureOf i t = failureOf i s := by
  simp only [failureOf, hsp, hindex, hreg]

/-- The table's rows for a step read nothing in that frame. -/
theorem stepFailure_of_onlyChanges (h : OnlyChanges s t besideSteps) : stepFailure t = stepFailure s := by
  have hpc : t.pc = s.pc := h .pc (by simp [besideSteps, keypad])
  have hbyte : ∀ a, t.byte a = s.byte a := fun a => h (.byte a) (by simp [besideSteps, keypad])
  have hsp : t.sp = s.sp := h .sp (by simp [besideSteps, keypad])
  have hindex : t.ireg = s.ireg := h .index (by simp [besideSteps, keypad])
  have hreg : ∀ r, t.reg r = s.reg r := fun r => h (.reg r) (by simp [besideSteps, keypad])
  simp only [stepFailure, hpc, hbyte, failureOf_congr hsp hindex hreg]

theorem step_fault_of_onlyChanges (h : OnlyChanges s t besideSteps) (hs : step s = .fault f) : step t = .fault f := by
  rw [(step_endsAs t).eq_fault_iff, stepFailure_of_onlyChanges h, ← (step_endsAs s).eq_fault_iff, hs]

/-- Settles O46, by induction on the schedule: each transaction keeps all that the failure reads, so that the step after
it fails again. -/
theorem failedStepFailsUntilLoadOrReset : Obligations.FailedStepFailsUntilLoadOrReset := by
  intro schedule s f hs hschedule
  induction schedule generalizing s with
  | nil => exact ⟨hs, OnlyChanges.refl s _⟩
  | cons tr schedule ih =>
    obtain ⟨⟨hreset, hload⟩, hrest⟩ := List.forall_mem_cons.1 hschedule
    have hframe := perform_onlyChanges_of_step_fault hs hreset hload
    obtain ⟨hfails, hframe'⟩ := ih _ (step_fault_of_onlyChanges hframe hs) hrest
    exact ⟨hfails, hframe.trans hframe'⟩

end Sys2Proof.Machine

/-! SUPPORT. The unrecognized opcodes (spec/30_encoding.md R65): which values of its field each dispatch of the decoder
rejects, then the families. -/

namespace Sys2Proof

open Machine

/-- Settles O1: the decoder run on each word. -/
theorem sampleOpcodesDecodeAsListed : Obligations.SampleOpcodesDecodeAsListed := by
  unfold Obligations.SampleOpcodesDecodeAsListed
  decide

/-! ### What each secondary dispatch rejects -/

theorem exists_decodeFamily0_error {nnn : Addr12} :
    (∃ e, decodeFamily0 nnn = .error e) ↔ nnn.toNat ≠ 0x0E0 ∧ nnn.toNat ≠ 0x0EE := by
  simp [decodeFamily0, ← BitVec.toNat_inj, ite_eq_iff]

theorem exists_decodeFamily8_error {x y : Reg} {n : Nat} :
    (∃ e, decodeFamily8 x y n = .error e) ↔ n ∉ [0, 1, 2, 3, 4, 5, 6, 7, 0xE] := by
  unfold decodeFamily8
  split
  case h_10 => simp_all
  all_goals simp

theorem exists_decodeFamilyE_error {x : Reg} {nn : Byte} :
    (∃ e, decodeFamilyE x nn = .error e) ↔ nn.toNat ∉ [0x9E, 0xA1] := by
  simp [decodeFamilyE, ← BitVec.toNat_inj, ite_eq_iff]

theorem exists_decodeFamilyF_error {x : Reg} {nn : Byte} :
    (∃ e, decodeFamilyF x nn = .error e) ↔ nn.toNat ∉ [0x07, 0x0A, 0x15, 0x18, 0x1E, 0x29, 0x33, 0x55, 0x65] := by
  simp [decodeFamilyF, ← BitVec.toNat_inj, ite_eq_iff]

/-! ### The families -/

/-- R65's list: a family is rejected by what its dispatch rejects, the ten families with no secondary dispatch not at
all. The arm `h_k` is family `k - 1`. -/
theorem exists_decode_error_iff (op : Word) : (∃ e, decode op = .error e) ↔
    (op.toNat / 4096 = 0x0 ∧ op.toNat ≠ 0x00E0 ∧ op.toNat ≠ 0x00EE) ∨
    (op.toNat / 4096 = 0x5 ∧ op.toNat % 16 ≠ 0) ∨
    (op.toNat / 4096 = 0x8 ∧ op.toNat % 16 ∈ [0x8, 0x9, 0xA, 0xB, 0xC, 0xD, 0xF]) ∨
    (op.toNat / 4096 = 0x9 ∧ op.toNat % 16 ≠ 0) ∨
    (op.toNat / 4096 = 0xE ∧ op.toNat % 256 ∉ [0x9E, 0xA1]) ∨
    (op.toNat / 4096 = 0xF ∧ op.toNat % 256 ∉ [0x07, 0x0A, 0x15, 0x18, 0x1E, 0x29, 0x33, 0x55, 0x65]) := by
  have hfam := toNat_famOf op
  unfold decode
  split
  case h_1 hf =>
    rw [hf] at hfam
    rw [exists_decodeFamily0_error, toNat_nnnOf]
    omega
  case h_6 hf | h_10 hf =>
    rw [hf] at hfam
    simp [← hfam, ite_eq_iff, nOf_eq]
  case h_9 hf =>
    rw [hf] at hfam
    rw [exists_decodeFamily8_error, nOf_eq]
    simp only [List.mem_cons, List.not_mem_nil, or_false]
    omega
  case h_15 hf =>
    rw [hf] at hfam
    simp [exists_decodeFamilyE_error, toNat_nnOf, ← hfam]
  case h_16 =>
    have hf : op.toNat / 4096 = 15 := by
      have := (famOf op).isLt
      simp only [imp_false] at *
      omega
    simp [exists_decodeFamilyF_error, toNat_nnOf, hf]
  case h_2 hf | h_3 hf | h_4 hf | h_5 hf | h_7 hf | h_8 hf | h_11 hf | h_12 hf | h_13 hf | h_14 hf =>
    rw [hf] at hfam
    simp [← hfam]

/-- Settles O5: R65's list, and a step at a rejected opcode. -/
theorem unrecognizedOpcodesFailTheStep : Obligations.UnrecognizedOpcodesFailTheStep :=
  ⟨exists_decode_error_iff, fun _ _ _ => step_of_decode_error⟩

end Sys2Proof

/-! SUPPORT. The failures of a step (spec/60_exceptions.md R160, R164) and the opcode placed at PC. -/

namespace Sys2Proof.Machine

variable {s t : State} {op : Word} {i : Instr} {failure : Option Fault} {o : Host.Outcome State Fault Refusal}

/-! ### The failure table, both ways -/

/-- An outcome commits where the table gives no failure. -/
theorem EndsAs.exists_next (h : EndsAs o failure) (hnone : failure = none) : ∃ t, o = .next t := by
  subst hnone
  exact h

/-- The table has no row for a refusal. -/
theorem EndsAs.ne_refused (h : EndsAs o failure) (r : Refusal) : o ≠ .refused r := by
  rintro rfl
  cases failure with
  | none => exact nomatch h
  | some f => exact nomatch h

/-- Settles O47, by `exec_endsAs`. -/
theorem instructionsFailExactlyAsListed : Obligations.InstructionsFailExactlyAsListed :=
  fun i s => ⟨(exec_endsAs i s).exists_next, fun _ => (exec_endsAs i s).eq_fault_iff.2⟩

/-- Settles O48: the cases of the fetch, of the decoder and of the instruction, one inside the other. -/
theorem stepFailsInPriorityOrder : Obligations.StepFailsInPriorityOrder := by
  refine fun s => ⟨fun f => ?_, (step_endsAs s).ne_refused⟩
  by_cases hpc : s.pc.toNat + 1 > 0xFFF
  · simp [step_of_pc_outside hpc, hpc, Nat.not_le.2 hpc, eq_comm]
  · have hle := Nat.le_of_not_lt hpc
    have hfetch := s.fetch?_ok hle
    cases hdecode : decode (opcodeOfBytes (s.byte s.pc.toNat) (s.byte (s.pc.toNat + 1))) with
    | error e => simp [step_of_decode_error hfetch hdecode, hpc, hle, hfetch, hdecode, eq_comm]
    | ok i => simp [step_eq_exec hfetch hdecode, (exec_endsAs i s).eq_fault_iff, hpc, hle, hfetch, hdecode]

/-! ### The opcode placed at PC (R44, R83) -/

/-- A table word decodes from its bytes as its opcode does. -/
theorem decode_of_decodeTableWord {nbits w : Nat} (h : decodeTableWord nbits w = some i) :
    decode (tableOpcode nbits w) = .ok i := by
  simp only [decodeTableWord, opcodeBytes, decodeBytes, opcodeOfBytes_bytes] at h
  cases hdecode : decode (tableOpcode nbits w) with
  | error e => simp [hdecode] at h
  | ok j => simpa [hdecode] using h

/-- Where a fetch fits, placing an opcode is a store of its two bytes. -/
theorem State.placeOpcode_of_fits (h : s.pc.toNat + 1 ≤ 0xFFF) (op : Word) :
    s.placeOpcode op = s.storeBytes s.pc.toNat (opcodeBytes op) :=
  if_pos ((rangeOk_iff _ _).2 (.inr (by omega)))

theorem State.fetch?_placeOpcode (hw : s.mem.wf) (h : s.pc.toNat + 1 ≤ 0xFFF) (op : Word) :
    (s.placeOpcode op).fetch? = some op := by
  have hfits : s.pc.toNat + (opcodeBytes op).length ≤ Config.memSize := Nat.succ_le_succ h
  have hhi := s.byte_storeBytes_inside hw hfits (k := 0) Nat.zero_lt_two
  have hlo := s.byte_storeBytes_inside hw hfits (k := 1) Nat.one_lt_two
  calc (s.placeOpcode op).fetch? = (s.storeBytes s.pc.toNat (opcodeBytes op)).fetch? := by
        rw [State.placeOpcode_of_fits h]
    _ = some (opcodeOfBytes (opcodeHi op) (opcodeLo op)) :=
        ((s.storeBytes _ _).fetch?_ok h).trans (congrArg some (congrArg₂ opcodeOfBytes hhi hlo))
    _ = some op := by rw [opcodeOfBytes_bytes]

/-- Settles O7: the two bytes stored at PC are what the fetch reads. -/
theorem placedOpcodeRunsNext : Obligations.PlacedOpcodeRunsNext := by
  intro s nbits w i hw hpc hi
  refine ⟨step_eq_exec (State.fetch?_placeOpcode hw hpc _) (decode_of_decodeTableWord hi), ?_⟩
  rw [State.withFetchWord, State.placeOpcode_of_fits hpc]
  exact (OnlyChanges.refl s _).storeBytes (Set.Subset.refl _)

end Sys2Proof.Machine

/-! SUPPORT. Addition of an immediate, shifts and the random byte (spec/43_register_alu.md R111, R118, R120, R121). -/

namespace Sys2Proof.Machine

variable {s t : State} {parts : Set Part}

/-! ### Addition of an immediate (R111) -/

theorem exec_addImm (x : Reg) (nn : Byte) (s : State) :
    exec (.addImm x nn) s = .next (s.setReg x (s.reg x + nn)).advance := rfl

/-- Settles O18: one register written, with the sum. -/
theorem addImmediateWrapsWithoutFlag : Obligations.AddImmediateWrapsWithoutFlag := by
  refine fun x nn => ⟨decode_encode (i := .addImm x nn) rfl, fun s => ?_⟩
  obtain ⟨hreg, hrest⟩ := setReg_advance_spec s x (s.reg x + nn)
  exact ⟨_, exec_addImm x nn s, by rw [hreg, BitVec.toNat_add], hrest⟩

/-! ### Shifts (R118, R120) -/

theorem exec_shr (x y : Reg) (s : State) : exec (.shr x y) s =
    .next ((s.setReg .vf (shiftedOutRight (s.reg x))).setReg x (s.reg x >>> 1)).advance := rfl

theorem exec_shl (x y : Reg) (s : State) : exec (.shl x y) s =
    .next ((s.setReg .vf (shiftedOutLeft (s.reg x))).setReg x (s.reg x <<< 1)).advance := rfl

/-- The flag written, then a register, then `next`: the register is what stays where it is VF (R86). -/
theorem setFlag_setReg_advance_spec (s : State) (x : Reg) (f b : Byte) :
    ((s.setReg .vf f).setReg x b).advance.reg x = b ∧
    (x ≠ 15 → ((s.setReg .vf f).setReg x b).advance.reg 15 = f) ∧
    ((s.setReg .vf f).setReg x b).advance.pc = s.pc + 2#16 ∧
    OnlyChanges s ((s.setReg .vf f).setReg x b).advance {.pc, .reg x, .reg 15} := by
  refine ⟨State.reg_setReg_same _ x b, fun hx => ?flag, rfl, ?frame⟩
  case flag => rw [State.reg_advance, State.reg_vf_setReg hx, State.reg_setReg_same]
  case frame => exact (((OnlyChanges.refl s _).setReg (by simp) f).setReg (by simp) b).advance (by simp)

/-- An instruction that writes a flag to VF and then a value to `V[x]`, both given as numbers. -/
theorem exists_next_shift {i : Instr} {x : Reg} {f b : Byte} {dropped shifted : Nat}
    (hexec : exec i s = .next ((s.setReg .vf f).setReg x b).advance) (hf : f.toNat = dropped) (hb : b.toNat = shifted) :
    ∃ t, exec i s = .next t ∧ (t.reg x).toNat = shifted ∧ (x ≠ 15 → (t.reg 15).toNat = dropped) ∧
      t.pc = s.pc + 2#16 ∧ OnlyChanges s t {.pc, .reg x, .reg 15} := by
  obtain ⟨hvalue, hflag, hrest⟩ := setFlag_setReg_advance_spec s x f b
  exact ⟨_, hexec, by rw [hvalue, hb], fun hx => by rw [hflag hx, hf], hrest⟩

/-- A flag as a number. -/
theorem toNat_flagByte (c : Bool) : (flagByte c).toNat = c.toNat := by
  cases c <;> rfl

theorem toNat_shiftedOutRight (b : Byte) : (shiftedOutRight b).toNat = b.toNat % 2 := by
  rw [shiftedOutRight, toNat_flagByte, BitVec.getLsbD, Nat.toNat_testBit, pow_zero, Nat.div_one]

theorem toNat_shiftedOutLeft (b : Byte) : (shiftedOutLeft b).toNat = b.toNat / 128 := by
  have hb := b.isLt
  rw [shiftedOutLeft, toNat_flagByte, BitVec.getLsbD, Nat.toNat_testBit]
  omega

theorem toNat_shiftRight_one (b : Byte) : (b >>> 1).toNat = b.toNat / 2 := by
  rw [BitVec.toNat_ushiftRight, Nat.shiftRight_one]

theorem toNat_shiftLeft_one (b : Byte) : (b <<< 1).toNat = 2 * b.toNat % 256 := by
  rw [BitVec.toNat_shiftLeft, Nat.shiftLeft_eq, pow_one, Nat.mul_comm]

/-- Settles O21: the dropped bit is written to VF first and the shifted value to `V[x]` after it. -/
theorem shiftsDropOneBitIntoVf : Obligations.ShiftsDropOneBitIntoVf :=
  fun x y => ⟨decode_encode (i := .shr x y) rfl, decode_encode (i := .shl x y) rfl, fun s =>
    ⟨exists_next_shift (exec_shr x y s) (toNat_shiftedOutRight _) (toNat_shiftRight_one _),
      exists_next_shift (exec_shl x y s) (toNat_shiftedOutLeft _) (toNat_shiftLeft_one _)⟩⟩

/-! ### The random byte (R121, R122) -/

theorem exec_rnd (x : Reg) (nn : Byte) (s : State) : exec (.rnd x nn) s =
    .next (s.setReg x (nn &&& Config.randomByte s.draws)).nextDraw.advance := rfl

/-- Using up a draw adds nothing to a frame that already lets the count change. -/
theorem OnlyChanges.nextDraw (h : OnlyChanges s t parts) (hdraws : .draws ∈ parts) :
    OnlyChanges s t.nextDraw parts := by
  intro p hp
  cases p with
  | draws => exact absurd hdraws hp
  | _ => exact h _ hp

/-- A register written, the draw used up, then `next`. -/
theorem setReg_nextDraw_advance_spec (s : State) (x : Reg) (b : Byte) :
    (s.setReg x b).nextDraw.advance.reg x = b ∧ (s.setReg x b).nextDraw.advance.draws = s.draws + 1 ∧
    (s.setReg x b).nextDraw.advance.pc = s.pc + 2#16 ∧
    OnlyChanges s (s.setReg x b).nextDraw.advance {.pc, .reg x, .draws} :=
  ⟨s.reg_setReg_same x b, rfl, rfl,
    (((OnlyChanges.refl s _).setReg (by simp) b).nextDraw (by simp)).advance (by simp)⟩

/-- Settles O22: the masked byte is written, whatever the draw is. -/
theorem randomByteIsMasked : Obligations.RandomByteIsMasked := by
  refine fun x nn => ⟨decode_encode (i := .rnd x nn) rfl, fun s => ?_⟩
  obtain ⟨hreg, hrest⟩ := setReg_nextDraw_advance_spec s x (nn &&& Config.randomByte s.draws)
  exact ⟨_, exec_rnd x nn s, fun k => by rw [hreg, BitVec.getLsbD_and], hrest⟩

end Sys2Proof.Machine

/-! SUPPORT. I moved and the register round trip (spec/44_index_memory.md R131, R132, R134, R135). -/

namespace Sys2Proof.Machine

/-- Settles O24: one write to I, of a sum that fits, or a failure. -/
theorem addToIndexKeepsSixteenBits : Obligations.AddToIndexKeepsSixteenBits := by
  refine fun x => ⟨decode_encode (i := .addI x) rfl, fun s => ?_⟩
  rw [exec_addI]
  refine ⟨fun hfits => ?_, fun hover => if_pos hover⟩
  obtain ⟨hindex, hrest⟩ := setI_advance_spec s (BitVec.ofNat 16 (s.ireg.toNat + (s.reg x).toNat))
  refine ⟨_, if_neg (Nat.not_lt.2 hfits), ?_, hrest⟩
  rw [hindex, BitVec.toNat_ofNat, Nat.mod_eq_of_lt (Nat.lt_succ_of_le hfits)]

theorem exec_ldF (x : Reg) (s : State) :
    exec (.ldF x) s = .next (s.setI (BitVec.ofNat 16 (5 * (s.reg x).toNat))).advance := rfl

/-- Settles O25: one write to I, of a product that is at most 5 * 255. -/
theorem glyphIndexIsFiveTimesVx : Obligations.GlyphIndexIsFiveTimesVx := by
  refine fun x => ⟨decode_encode (i := .ldF x) rfl, fun s => ?_⟩
  obtain ⟨hindex, hrest⟩ := setI_advance_spec s (BitVec.ofNat 16 (5 * (s.reg x).toNat))
  refine ⟨_, exec_ldF x s, ?_, hrest⟩
  rw [hindex, BitVec.toNat_ofNat]
  omega

/-- Settles O29, from the contracts of the store (O27) and of the load (O28): the load reads at the same I the bytes the
store wrote there, and loads no register above Vx. -/
theorem storedRegistersLoadBack : Obligations.StoredRegistersLoadBack := by
  intro s t t' x hw hstore hmem hindex
  have hfits : s.ireg.toNat + x.val ≤ 0xFFF := by
    obtain ⟨hrange, -⟩ := withRange_eq_next hstore
    exact Nat.le_of_lt_succ (hrange.resolve_left x.val.succ_ne_zero)
  obtain ⟨_, hcommit, hstored, -, hstoreFrame⟩ := ((registersAreStoredFromI x).2 s hw).1 hfits
  obtain rfl := Host.Outcome.next.inj (hstore.symm.trans hcommit)
  have hbase : t'.ireg = s.ireg := hindex.trans (hstoreFrame .index (by simp [bytesFrom]))
  have hbyte : ∀ a, t'.byte a = t.byte a := fun a => congrArg (Memory.read · a) hmem
  obtain ⟨u, hload, hloaded, -, hloadFrame⟩ := ((registersAreLoadedFromI x).2 t').1 (hbase ▸ hfits)
  refine ⟨u, hload, fun k hk => ?stored, fun k hk => hloadFrame (.reg k) (by simpa [regsUpTo] using hk)⟩
  case stored => rw [hloaded k hk, hbase, hbyte, hstored k hk]

end Sys2Proof.Machine

/-! SUPPORT. The display (spec/45_display.md R140 to R144): the frame of a new framebuffer, the sprite's cells in the
terms of the statements, and the double draw. -/

namespace Sys2Proof.Machine

variable {s t : State} {parts : Set Part} {x y : Reg} {n : Nat} {px : Fin 64} {py : Fin 32}

/-! ### Frames -/

/-- A new framebuffer adds nothing to a frame that already lets the screen change. -/
theorem OnlyChanges.setFb (h : OnlyChanges s t parts) (hscreen : screen ⊆ parts) (fb : Framebuffer) :
    OnlyChanges s (t.setFb fb) parts := by
  intro p hp
  cases p with
  | pixel px py => exact absurd (hscreen (.inr ⟨px, py, rfl⟩)) hp
  | dirty => exact absurd (hscreen (.inl rfl)) hp
  | _ => exact h _ hp

theorem onlyChanges_setFb_advance (s : State) (fb : Framebuffer) :
    OnlyChanges s (s.setFb fb).advance ({.pc} ∪ screen) :=
  ((OnlyChanges.refl s _).setFb Set.subset_union_right fb).advance (.inl rfl)

/-- The screen drawn on, then the flag, then `next`. -/
theorem onlyChanges_setFb_setFlag_advance (s : State) (fb : Framebuffer) (f : Byte) :
    OnlyChanges s ((s.setFb fb).setReg .vf f).advance ({.pc, .reg .vf} ∪ screen) :=
  (((OnlyChanges.refl s _).setFb Set.subset_union_right fb).setReg (by simp) f).advance (by simp)

/-! ### 00E0 (R140) -/

theorem exec_cls (s : State) : exec .cls s = .next (s.setFb (Vector.replicate 32 0)).advance := rfl

/-- Settles O31: the new framebuffer is blank. -/
theorem clearScreenUnlightsEveryCell : Obligations.ClearScreenUnlightsEveryCell :=
  ⟨decode_encode (i := .cls) rfl, fun s => ⟨_, exec_cls s, pixel_blank, rfl, rfl, onlyChanges_setFb_advance s _⟩⟩

/-! ### The cells of a sprite (R141, R142) -/

/-- A set sprite bit falls on a cell exactly when the cell lies in a row of the sprite, under a set bit of that row. -/
theorem spriteOn_iff_rowOn : SpriteOn s x y n px py ↔
    ∃ r, ∃ h : r < (s.loadBytes s.base n).length,
      py = wrapY ((s.reg y).toNat + r) ∧ RowOn (s.reg x).toNat (s.loadBytes s.base n)[r] px := by
  have hlen : (s.loadBytes s.base n).length = n := Memory.length_readList _ _ _
  have hbyte : ∀ r (h : r < (s.loadBytes s.base n).length),
      (s.loadBytes s.base n)[r] = s.byte (s.ireg.toNat + r) := fun r h =>
    Option.some.inj ((List.getElem?_eq_getElem h).symm.trans (Memory.getElem?_readList (hlen ▸ h)))
  constructor
  · rintro ⟨r, hr, c, hc, hbit, hx, hy⟩
    exact ⟨r, by omega, Fin.ext hy, c, hc, by rw [hbyte]; exact hbit, Fin.ext hx⟩
  · rintro ⟨r, hr, hy, c, hc, hbit, hx⟩
    exact ⟨r, by omega, c, hc, by rw [← hbyte r hr]; exact hbit, congrArg Fin.val hx, congrArg Fin.val hy⟩

/-- Drawing toggles the cells under set sprite bits. -/
theorem pixel_drawn (hn : n ≤ 32) :
    (s.drawn x y n).fb.pixel px py = true ↔ ¬(s.pixel px py = true ↔ SpriteOn s x y n px py) := by
  have hlen : (s.loadBytes s.base n).length ≤ 32 := (Memory.length_readList _ _ _).trans_le hn
  rw [spriteOn_iff_rowOn]
  exact (drawRows_spec _ _ _ hlen _).1 px py

/-- Drawing collides where a set sprite bit falls on a lit cell. -/
theorem collision_drawn (hn : n ≤ 32) :
    (s.drawn x y n).collision = true ↔ ∃ px py, SpriteOn s x y n px py ∧ s.pixel px py = true := by
  have hlen : (s.loadBytes s.base n).length ≤ 32 := (Memory.length_readList _ _ _).trans_le hn
  simp only [spriteOn_iff_rowOn]
  refine (drawRows_spec _ _ _ hlen _).2.trans ?_
  constructor
  · rintro (hfalse | ⟨r, hr, qx, hon, hlit⟩)
    · cases hfalse
    · exact ⟨qx, _, ⟨r, hr, rfl, hon⟩, hlit⟩
  · rintro ⟨qx, _, ⟨r, hr, rfl, hon⟩, hlit⟩
    exact .inr ⟨r, hr, qx, hon, hlit⟩

/-! ### Dxyn (R141, R143) -/

theorem exec_drw (x y : Reg) (n : Nat) (s : State) : exec (.drw x y n) s = withRange s.ireg.toNat n
    (commit ((s.setFb (s.drawn x y n).fb).setReg .vf (flagByte (s.drawn x y n).collision)).advance) := rfl

/-- Settles O32, from the cells and the collision that `drawRows_spec` gives. -/
theorem drawTogglesTheSpriteCells : Obligations.DrawTogglesTheSpriteCells := by
  refine fun x y n hn => ⟨decode_encode (i := .drw x y n) (decide_eq_true hn), fun s => ?_⟩
  have hcell : ∀ px py, (s.drawn x y n).fb.pixel px py = true ↔ ¬(s.pixel px py = true ↔ SpriteOn s x y n px py) :=
    fun px py => pixel_drawn (by omega)
  have hcollision := collision_drawn (s := s) (x := x) (y := y) (n := n) (by omega)
  rw [exec_drw]
  refine ⟨fun hfits => ⟨_, withRange_ok (by omega), fun px py hon => ?toggled, fun px py hoff => ?kept,
    fun hlit => ?hit, fun hnone => ?miss, rfl, rfl, onlyChanges_setFb_setFlag_advance s _ _⟩,
    fun hfails => withRange_fails (by omega) (by omega)⟩
  case toggled =>
    refine Bool.eq_iff_iff.2 ((hcell px py).trans ?_)
    simp [hon]
  case kept =>
    refine Bool.eq_iff_iff.2 ((hcell px py).trans ?_)
    simp [hoff]
  case hit => rw [State.reg_advance, State.reg_setReg_same, hcollision.2 hlit]; rfl
  case miss => rw [State.reg_advance, State.reg_setReg_same, Bool.eq_false_iff.2 (mt hcollision.1 hnone)]; rfl

/-! ### The double draw (R144) -/

/-- The cells of a sprite are a function of memory, I and the coordinates. -/
theorem spriteOn_congr (hbyte : ∀ a, t.byte a = s.byte a) (hindex : t.ireg = s.ireg) (hx : t.reg x = s.reg x)
    (hy : t.reg y = s.reg y) : SpriteOn t x y n px py ↔ SpriteOn s x y n px py := by
  simp only [SpriteOn, hbyte, hindex, hx, hy]

/-- Settles O33, from the contract of the draw (O32) at both states: the first draw leaves memory, I and the coordinates,
so the second toggles the same cells, each of which was toggled once. -/
theorem drawingTwiceRestoresTheScreen : Obligations.DrawingTwiceRestoresTheScreen := by
  intro s t x y n hx hy hn hdraw
  have hfits : n = 0 ∨ s.ireg.toNat + n - 1 ≤ 0xFFF := by
    obtain ⟨hrange, -⟩ := withRange_eq_next hdraw
    exact hrange.imp_right fun h => Nat.sub_le_of_le_add h
  have contract := (drawTogglesTheSpriteCells x y n hn).2
  obtain ⟨_, hcommit, htoggled, hkept, -, -, -, -, hframe⟩ := (contract s).1 hfits
  obtain rfl := Host.Outcome.next.inj (hdraw.symm.trans hcommit)
  have hindex : t.ireg = s.ireg := hframe .index (by simp [screen])
  have hon : ∀ px py, SpriteOn t x y n px py ↔ SpriteOn s x y n px py := fun px py =>
    spriteOn_congr (fun a => hframe (.byte a) (by simp [screen])) hindex
      (hframe (.reg x) (by simp [screen, hx])) (hframe (.reg y) (by simp [screen, hy]))
  obtain ⟨u, hredraw, htoggled', hkept', hhit, hmiss, -⟩ := (contract t).1 (hindex ▸ hfits)
  refine ⟨u, hredraw, fun px py => ?restored, ?collision⟩
  case restored =>
    by_cases hs : SpriteOn s x y n px py
    · rw [htoggled' px py ((hon px py).2 hs), htoggled px py hs, Bool.not_not]
    · rw [hkept' px py (mt (hon px py).1 hs), hkept px py hs]
  case collision =>
    have hlit : (∃ px py, SpriteOn t x y n px py ∧ t.pixel px py = true) ↔
        ∃ px py, SpriteOn s x y n px py ∧ s.pixel px py = false := by
      refine exists_congr fun px => exists_congr fun py => ?_
      rw [hon]
      refine and_congr_right fun hs => ?_
      rw [htoggled px py hs, Bool.not_eq_true']
    rw [← hlit]
    refine ⟨fun h => ?_, hhit⟩
    by_contra hnone
    exact absurd ((hmiss hnone).symm.trans h) (by decide)

end Sys2Proof.Machine

/-! SUPPORT. Keys and the sound timer (spec/46_keypad_timers.md R150, R151, R153, R155): the skips on a key, the edges of
BEEP, and the wait, which leaves the state as it is while no key is pressed. -/

namespace Sys2Proof.Machine

variable {s t : State}

/-! ### Skips on a key (R150, R151) -/

/-- Settles O34: a value up to 15 names a key and the instruction is a skip on it, one above names none. -/
theorem keySkipsTestTheKeyVxNames : Obligations.KeySkipsTestTheKeyVxNames := by
  refine fun x => ⟨decode_encode (i := .skp x) rfl, decode_encode (i := .sknp x) rfl, fun s =>
    ⟨fun k hk => ?named, fun h => ⟨exec_skp_of_no_key h, exec_sknp_of_no_key h⟩⟩⟩
  case named =>
    have hkey : s.key? (s.reg x).toNat = some s.key[k] := State.key?_eq_some.2 ⟨k, hk.symm, rfl⟩
    rw [exec_skp_of_key? hkey, exec_sknp_of_key? hkey]
    exact ⟨exists_commit_skipIf Iff.rfl, exists_commit_skipIf_not (by simp)⟩

/-! ### The sound timer (R155, R18) -/

/-- The rising edge of BEEP (R18). -/
theorem beepEdge_of_rises (hs : s.beep = false) (ht : t.beep = true) : beepEdge s t = some .startBeep := by
  rw [beepEdge, hs, ht]

theorem State.beep_eq_true : s.beep = true ↔ s.st ≠ 0#8 := bne_iff_ne

theorem State.beep_eq_false : s.beep = false ↔ s.st = 0#8 := bne_eq_false_iff_eq

theorem exec_ldStVx (x : Reg) (s : State) : exec (.ldStVx x) s = .next (s.setSt (s.reg x)).advance := rfl

/-- ST written, then `next`. -/
theorem setSt_advance_spec (s : State) (b : Byte) :
    (s.setSt b).advance.st = b ∧ (s.setSt b).advance.pc = s.pc + 2#16 ∧
    OnlyChanges s (s.setSt b).advance {.pc, .st} :=
  ⟨rfl, rfl, ((OnlyChanges.refl s _).setSt (by simp) b).advance (by simp)⟩

/-- Settles O36: ST written, with the edge of BEEP between its old and its new value. -/
theorem soundTimerIsSetAndBeepEdgesFire : Obligations.SoundTimerIsSetAndBeepEdgesFire := by
  refine fun x => ⟨decode_encode (i := .ldStVx x) rfl, fun s => ?_⟩
  obtain ⟨hst, hpc, hframe⟩ := setSt_advance_spec s (s.reg x)
  refine ⟨_, exec_ldStVx x s, hst, hpc, hframe, fun hold hnew => ?rises, fun hold hnew => ?falls, fun hsame => ?same⟩
  case rises => exact beepEdge_of_rises (State.beep_eq_false.2 hold) (State.beep_eq_true.2 hnew)
  case falls => exact beepEdge_of_falls (State.beep_eq_true.2 hold) (State.beep_eq_false.2 hnew)
  case same =>
    refine beepEdge_of_same (Bool.eq_iff_iff.2 ?_)
    rw [State.beep_eq_true, State.beep_eq_true, hst]
    exact not_congr hsame

/-! ### The wait (R153) -/

theorem exec_ldVxK_of_no_key (h : s.lowestKey? = none) (x : Reg) : exec (.ldVxK x) s = .next s := by
  simp only [exec, execLdVxK, h, commit]

theorem exec_ldVxK_of_key {k : Nat} (h : s.lowestKey? = some k) (x : Reg) :
    exec (.ldVxK x) s = .next (s.setReg x (BitVec.ofNat 8 k)).advance := by
  simp only [exec, execLdVxK, h, commit]

/-- Settles O37: the two answers of the search for a pressed key. -/
theorem waitForKeyTakesTheLowestPressed : Obligations.WaitForKeyTakesTheLowestPressed := by
  refine fun x => ⟨decode_encode (i := .ldVxK x) rfl, fun s =>
    ⟨fun hnone => exec_ldVxK_of_no_key (State.lowestKey?_eq_none.2 hnone) x, fun k hk hlower => ?_⟩⟩
  have hlowest : s.lowestKey? = some k.val := State.lowestKey?_eq_some.2 ⟨k.isLt, hk, hlower⟩
  obtain ⟨hreg, hrest⟩ := setReg_advance_spec s x (BitVec.ofNat 8 k.val)
  refine ⟨_, exec_ldVxK_of_key hlowest x, ?_, hrest⟩
  rw [hreg, BitVec.toNat_ofNat]
  omega

/-- What WAITING is (R87): PC holds Fx0A and no key is pressed. -/
theorem exists_ldVxK_of_waiting (h : s.waiting = true) :
    ∃ op x, s.fetch? = some op ∧ decode op = .ok (.ldVxK x) ∧ s.lowestKey? = none := by
  unfold State.waiting at h
  split at h
  · cases h
  · split at h
    · exact ⟨_, _, ‹_›, ‹_›, Option.isNone_iff_eq_none.1 h⟩
    · cases h

theorem step_eq_self_of_waiting (h : s.waiting = true) : step s = .next s := by
  obtain ⟨op, x, hfetch, hdecode, hnone⟩ := exists_ldVxK_of_waiting h
  rw [step_eq_exec hfetch hdecode, exec_ldVxK_of_no_key hnone]

/-- Settles O38: the step of a waiting state leaves it as it is. -/
theorem waitingStepsChangeNothing : Obligations.WaitingStepsChangeNothing :=
  fun _ h => stepsTo_iff_of_step_eq_self (step_eq_self_of_waiting h)

end Sys2Proof.Machine

/-! SUPPORT. `load`, `reset` and `ack_dirty` (spec/70_reset_and_hazards.md R200 to R203; spec/10_state.md R21, R32). -/

namespace Sys2Proof.Machine

variable {s t : State}

/-! ### Load (R203) -/

theorem transact_load_of_too_large {rom : List Byte} (h : rom.length > Config.romMax) (s : State) :
    transact (.load rom) s = .fault .romTooLarge :=
  if_pos h

/-- Settles O42: a ROM that fits is a store from 0x200, and a larger one fails. -/
theorem loadCopiesTheRomTo0x200 : Obligations.LoadCopiesTheRomTo0x200 := by
  refine fun s rom hw => ⟨fun hfits => ?fits, fun hlarge => ?large⟩
  case fits =>
    rw [perform_of_transact_eq_next (transact_load_of_fits hfits s)]
    exact ⟨rfl, fun k hk => s.byte_storeBytes_inside hw (progBase_add_le_memSize hfits) hk,
      (OnlyChanges.refl s _).storeBytes (Set.Subset.refl _)⟩
  case large =>
    rw [perform_of_transact_eq_fault (transact_load_of_too_large hlarge s)]
    exact ⟨rfl, rfl⟩

/-! ### Reset (R32, R200) -/

theorem perform_reset (s : State) :
    perform .reset s = { state := s.afterReset, status := .ok, event := beepEdge s s.afterReset } :=
  perform_of_transact_eq_next rfl

@[simp] theorem State.reg_afterReset (s : State) (r : Reg) : s.afterReset.reg r = 0#8 := by
  simp [State.reg, State.afterReset, State.reset]

@[simp] theorem State.stack_afterReset (s : State) (k : Fin 16) : s.afterReset.stack[k] = 0#16 := by
  simp [State.afterReset, State.reset]

@[simp] theorem State.key_afterReset (s : State) (k : Fin 16) : s.afterReset.key[k] = false := by
  simp [State.afterReset, State.reset]

@[simp] theorem State.pixel_afterReset (s : State) (px : Fin 64) (py : Fin 32) : s.afterReset.pixel px py = false :=
  pixel_blank px py

/-- Nothing is listed in reset memory, so every byte reads as its reset contents (R22). -/
theorem State.byte_afterReset (s : State) (a : Nat) : s.afterReset.byte a = memInit a := rfl

/-- Settles O43, element by element. -/
theorem resetLeavesTheBaseline : Obligations.ResetLeavesTheBaseline := by
  intro s
  rw [perform_reset]
  exact ⟨rfl, s.reg_afterReset, rfl, rfl, rfl, s.stack_afterReset, rfl, rfl, s.key_afterReset, s.pixel_afterReset, rfl,
    fun a ha => (s.byte_afterReset a).trans (if_pos ha),
    fun a ha _ => (s.byte_afterReset a).trans (if_neg (Nat.not_lt.2 ha)), rfl⟩

/-- Settles O53, by `State.inv_reset`. -/
theorem invariantHoldsAtReset : Obligations.InvariantHoldsAtReset := State.inv_reset

/-! ### Acknowledgement (R21) -/

/-- Settles O44: DIRTY is cleared and ST, of which BEEP is the level, is not touched. -/
theorem ackDirtyClearsTheFlagAlone : Obligations.AckDirtyClearsTheFlagAlone := by
  intro s
  rw [perform_of_transact_eq_next (tr := .ackDirty) (u := ackDirty s) rfl]
  exact ⟨rfl, rfl, beepEdge_of_same rfl, onlyChanges_ackDirty s⟩

end Sys2Proof.Machine

/-! SUPPORT. The frame of every instruction (spec/10_state.md, the "written by" clauses), from the frame rules of the
operations each meaning is made of. -/

namespace Sys2Proof.Machine

variable {s t u : State} {parts : Set Part}

/-- What holds of the committed state holds of the answer. -/
theorem onlyChanges_of_commit (h : commit u = .next t) (hu : OnlyChanges s u parts) : OnlyChanges s t parts :=
  eq_of_commit_eq_next h ▸ hu

/-- 00EE: a pop and a jump. -/
theorem onlyChanges_of_execRet (h : execRet s = .next t) : OnlyChanges s t {.pc, .sp} := by
  obtain ⟨w, u, hpop, rfl⟩ := execRet_eq_next h
  exact ((onlyChanges_of_pop? hpop).mono (Set.subset_insert _ _)).setPc (.inl rfl) w

/-- 2nnn: a push and a jump. -/
theorem onlyChanges_of_execCall {nnn : Addr12} (h : execCall nnn s = .next t) :
    OnlyChanges s t ({.pc, .sp} ∪ {p | ∃ k : Fin 16, k.val = s.sp.val ∧ p = .stackEntry k}) := by
  obtain ⟨u, hpush, rfl⟩ := execCall_eq_next h
  exact ((onlyChanges_of_push? hpush).mono (Set.union_subset_union_left _ (Set.subset_insert _ _))).setPc
    (.inl (.inl rfl)) _

/-- Fx0A: nothing, or a register and PC. -/
theorem onlyChanges_of_execLdVxK {x : Reg} (h : execLdVxK x s = .next t) : OnlyChanges s t {.pc, .reg x} := by
  obtain ⟨-, rfl⟩ | ⟨k, -, rfl⟩ := execLdVxK_eq_next h
  · exact OnlyChanges.refl _ _
  · obtain ⟨-, -, hframe⟩ := setReg_advance_spec s x (BitVec.ofNat 8 k)
    exact hframe

/-- Fx33 and Fx55: the bytes stored and PC. -/
theorem onlyChanges_of_checkedStore {n : Nat} {bs : List Byte} (hlen : bs.length = n)
    (h : withRange s.base n (commit (s.storeBytes s.base bs).advance) = .next t) :
    OnlyChanges s t ({.pc} ∪ bytesFrom s.ireg.toNat n) := by
  obtain ⟨-, hcommit⟩ := withRange_eq_next h
  subst hlen
  exact onlyChanges_of_commit hcommit (((OnlyChanges.refl s _).storeBytes Set.subset_union_right).advance (.inl rfl))

/-- Every instruction that commits changes only what it may. -/
theorem onlyChanges_of_exec {i : Instr} (h : exec i s = .next t) : OnlyChanges s t (mayWrite i s) := by
  cases i with
  | cls => exact onlyChanges_of_commit h (onlyChanges_setFb_advance s _)
  | ret => exact onlyChanges_of_execRet h
  | call => exact onlyChanges_of_execCall h
  | jp | jpV0 => exact onlyChanges_of_commit h (onlyChanges_setPc s _)
  | seImm | sneImm | seReg | sneReg => exact onlyChanges_of_commit h (onlyChanges_skipIf s _)
  | skp =>
    obtain ⟨pressed, -, rfl⟩ := execSkp_eq_next h
    exact onlyChanges_skipIf s _
  | sknp =>
    obtain ⟨pressed, -, rfl⟩ := execSknp_eq_next h
    exact onlyChanges_skipIf s _
  | ldImm x | addImm x | ldReg x | orReg x | andReg x | xorReg x | ldVxDt x =>
    obtain ⟨-, -, hframe⟩ := setReg_advance_spec s x _
    exact onlyChanges_of_commit h hframe
  | ldVxK => exact onlyChanges_of_execLdVxK h
  | addReg x | subReg x | subnReg x =>
    obtain ⟨-, -, -, hframe⟩ := setReg_setFlag_advance_spec s x _ _
    exact onlyChanges_of_commit h hframe
  | shr x | shl x =>
    obtain ⟨-, -, -, hframe⟩ := setFlag_setReg_advance_spec s x _ _
    exact onlyChanges_of_commit h hframe
  | rnd x =>
    obtain ⟨-, -, -, hframe⟩ := setReg_nextDraw_advance_spec s x _
    exact onlyChanges_of_commit h hframe
  | ldI | ldF =>
    obtain ⟨-, -, hframe⟩ := setI_advance_spec s _
    exact onlyChanges_of_commit h hframe
  | addI =>
    obtain ⟨-, rfl⟩ := execAddI_eq_next h
    obtain ⟨-, -, hframe⟩ := setI_advance_spec s _
    exact hframe
  | drw =>
    obtain ⟨-, h⟩ := withRange_eq_next h
    exact onlyChanges_of_commit h (onlyChanges_setFb_setFlag_advance s _ _)
  | ldDtVx =>
    obtain ⟨-, -, hframe⟩ := setDt_advance_spec s _
    exact onlyChanges_of_commit h hframe
  | ldStVx =>
    obtain ⟨-, -, hframe⟩ := setSt_advance_spec s _
    exact onlyChanges_of_commit h hframe
  | ldB => exact onlyChanges_of_checkedStore rfl h
  | storeRegs x => exact onlyChanges_of_checkedStore (s.length_regList x.isLt) h
  | loadRegs x =>
    obtain ⟨-, h⟩ := withRange_eq_next h
    obtain ⟨-, -, hframe⟩ := setRegList_loadBytes_advance_spec s s.base x
    exact onlyChanges_of_commit h hframe

/-- Settles O50, by `onlyChanges_of_exec`. -/
theorem instructionsChangeOnlyTheirParts : Obligations.InstructionsChangeOnlyTheirParts :=
  fun _ _ _ h => onlyChanges_of_exec h

end Sys2Proof.Machine

/-! SUPPORT. What instructions do not read (spec/10_state.md, the "read by" clauses): an update of the keys, ST, DIRTY and
the draw count passes through every instruction that neither reads nor writes what it updates. -/

namespace Sys2Proof.Machine

/-- An update of each of the four elements that few instructions read or write. -/
structure SideUpdate where
  /-- Of the keys. -/
  key : Vector Bool 16 → Vector Bool 16 := id
  /-- Of ST. -/
  st : Byte → Byte := id
  /-- Of DIRTY. -/
  dirty : Bool → Bool := id
  /-- Of the model's draw counter. -/
  draws : Nat → Nat := id

/-- The state with that update made. -/
def SideUpdate.apply (f : SideUpdate) (s : State) : State :=
  { s with key := f.key s.key, st := f.st s.st, dirty := f.dirty s.dirty, draws := f.draws s.draws }

/-- An update leaves alone what an instruction reads or writes of the four elements. -/
structure SideUpdate.Spares (f : SideUpdate) (i : Instr) : Prop where
  /-- A reader of keys sees the same keys. -/
  key : readsKeys i = true → f.key = id
  /-- Fx18 writes ST. -/
  st : ∀ x, i = .ldStVx x → f.st = id
  /-- 00E0 and Dxyn set DIRTY. -/
  dirty : (i = .cls ∨ ∃ x y n, i = .drw x y n) → f.dirty = id
  /-- Cxnn reads the count and counts on. -/
  draws : ∀ x nn, i = .rnd x nn → f.draws = id

variable {f : SideUpdate} {i : Instr} {s : State}

/-! ### Operations under an update -/

@[simp] theorem SideUpdate.apply_pc (f : SideUpdate) (s : State) : (f.apply s).pc = s.pc := rfl

@[simp] theorem SideUpdate.apply_reg (f : SideUpdate) (s : State) (r : Reg) : (f.apply s).reg r = s.reg r := rfl

theorem SideUpdate.apply_skipIf (f : SideUpdate) (s : State) (c : Bool) :
    (f.apply s).skipIf c = f.apply (s.skipIf c) := by
  cases c
  · rfl
  · rfl

theorem SideUpdate.apply_pop? (f : SideUpdate) (s : State) :
    (f.apply s).pop? = s.pop?.map (Prod.map id f.apply) := by
  unfold State.pop?
  rw [apply_dite (Option.map _)]
  rfl

theorem SideUpdate.apply_push? (f : SideUpdate) (s : State) (w : Word) :
    (f.apply s).push? w = (s.push? w).map f.apply := by
  unfold State.push?
  rw [apply_dite (Option.map _)]
  rfl

theorem SideUpdate.apply_key? (h : f.key = id) (s : State) (k : Nat) : (f.apply s).key? k = s.key? k := by
  simp only [State.key?, SideUpdate.apply, h, id]

theorem SideUpdate.apply_lowestKey? (h : f.key = id) (s : State) : (f.apply s).lowestKey? = s.lowestKey? := by
  simp only [State.lowestKey?, SideUpdate.apply, h, id]

theorem SideUpdate.apply_setSt (h : f.st = id) (s : State) (b : Byte) : (f.apply s).setSt b = f.apply (s.setSt b) := by
  simp only [State.setSt, SideUpdate.apply, h, id]

theorem SideUpdate.apply_setFb (h : f.dirty = id) (s : State) (fb : Framebuffer) :
    (f.apply s).setFb fb = f.apply (s.setFb fb) := by
  simp only [State.setFb, SideUpdate.apply, h, id]

theorem SideUpdate.apply_rndWith (h : f.draws = id) (s : State) (r : Byte) (x : Reg) (nn : Byte) :
    rndWith r x nn (f.apply s) = f.apply (rndWith r x nn s) := by
  simp only [rndWith, State.nextDraw, State.setReg, State.advance, State.setPc, SideUpdate.apply, h, id]

theorem SideUpdate.apply_randomByte (h : f.draws = id) (s : State) : (f.apply s).randomByte = s.randomByte := by
  simp only [State.randomByte, SideUpdate.apply, h, id]

/-! ### Instructions under an update -/

theorem commit_apply {u v : State} (h : v = f.apply u) : commit v = mapNext f.apply (commit u) :=
  congrArg commit h

/-- The bound check is on I, which no update touches. -/
theorem withRange_apply {base n : Nat} {u v : State} (h : v = f.apply u) :
    withRange base n (commit v) = mapNext f.apply (withRange base n (commit u)) := by
  unfold withRange
  split
  · exact commit_apply h
  · rfl

/-- An instruction that an update spares runs the same under it. -/
theorem exec_apply (h : f.Spares i) (s : State) : exec i (f.apply s) = mapNext f.apply (exec i s) := by
  cases i with
  | jp | jpV0 | ldImm | addImm | ldReg | orReg | andReg | xorReg | addReg | subReg | shr | subnReg | shl | ldI | ldVxDt
  | ldDtVx | ldF => rfl
  | seImm | sneImm | seReg | sneReg => exact commit_apply (f.apply_skipIf s _)
  | ldB | storeRegs | loadRegs => exact withRange_apply rfl
  | cls => exact commit_apply (congrArg State.advance (SideUpdate.apply_setFb (h.dirty (.inl rfl)) s _))
  | drw x y n =>
    have hfb := SideUpdate.apply_setFb (h.dirty (.inr ⟨x, y, n, rfl⟩)) s (s.drawn x y n).fb
    exact withRange_apply (congrArg (fun u => (u.setReg .vf (flagByte (s.drawn x y n).collision)).advance) hfb)
  | ldStVx x => exact commit_apply (congrArg State.advance (SideUpdate.apply_setSt (h.st x rfl) s _))
  | rnd x nn =>
    have hdraws := h.draws x nn rfl
    refine commit_apply ?_
    rw [SideUpdate.apply_randomByte hdraws, SideUpdate.apply_rndWith hdraws]
  | addI x =>
    rw [exec_addI, exec_addI, apply_ite (mapNext f.apply)]
    rfl
  | ret =>
    simp only [exec, execRet, f.apply_pop?]
    cases s.pop? <;> rfl
  | call nnn =>
    simp only [exec, execCall, SideUpdate.apply_pc, f.apply_push?]
    cases s.push? (s.pc + 2#16) <;> rfl
  | skp x | sknp x =>
    simp only [exec, execSkp, execSknp, SideUpdate.apply_reg, SideUpdate.apply_key? (h.key rfl)]
    cases s.key? (s.reg x).toNat with
    | none => rfl
    | some pressed => exact commit_apply (f.apply_skipIf s _)
  | ldVxK x =>
    simp only [exec, execLdVxK, SideUpdate.apply_lowestKey? (h.key rfl)]
    cases s.lowestKey? <;> rfl

/-- Settles O52: an update of one element is spared by every instruction but the writers and readers of it; Fx18, 00E0
and Dxyn overwrite ST and DIRTY, whatever they were. -/
theorem inputsReachOnlyTheirReaders : Obligations.InputsReachOnlyTheirReaders := by
  refine fun i s => ⟨fun d hrnd => ?draws, fun key hkeys => ?key, fun b hst => ?st, fun x hi b => ?stWriter,
    fun b hcls hdrw => ?dirty, fun b hi => ?dirtyWriter⟩
  case draws =>
    exact exec_apply (f := { draws := fun _ => d }) ⟨fun _ => rfl, fun _ _ => rfl, fun _ => rfl,
      fun x nn hi => absurd hi (hrnd x nn)⟩ s
  case key =>
    exact exec_apply (f := { key := fun _ => key }) ⟨fun hi => absurd hi (by simp [hkeys]), fun _ _ => rfl,
      fun _ => rfl, fun _ _ _ => rfl⟩ s
  case st =>
    exact exec_apply (f := { st := fun _ => b }) ⟨fun _ => rfl, fun x hi => absurd hi (hst x), fun _ => rfl,
      fun _ _ _ => rfl⟩ s
  case dirty =>
    refine exec_apply (f := { dirty := fun _ => b }) ⟨fun _ => rfl, fun _ _ => rfl, ?_, fun _ _ _ => rfl⟩ s
    rintro (hi | ⟨x, y, n, hi⟩)
    · exact absurd hi hcls
    · exact absurd hi (hdrw x y n)
  case stWriter =>
    subst hi
    rfl
  case dirtyWriter =>
    obtain rfl | ⟨x, y, n, rfl⟩ := hi
    · rfl
    · rfl

end Sys2Proof.Machine
